-- ==== Sys2Proof/Word.lean ====
section
/-! DEFINITION. The words of the engine: command words, times, channels and colors
(00_scope.md R9, R13; 30_encoding.md R64). -/

namespace Sys2Proof

/-- A command word, and a 32-bit register (R64, R24). Bit 0 is the least significant (R9). -/
abbrev Word := BitVec 32

/-- A value of the `now_ms` input, in milliseconds, wrapping at 2^32 (R56). -/
abbrev Millis := BitVec 32

/-- One 7-bit color channel, 0..127 (R13). -/
abbrev Channel := BitVec 7

/-- A pixel index as the port `px_idx[15:0]` carries it (R40). -/
abbrev PixelIndex := BitVec 16

/-- A color: three 7-bit channels, 21 bits in all (R13). -/
structure Color where
  r : Channel
  g : Channel
  b : Channel
deriving DecidableEq, Repr, Inhabited

/-- The same scalar function applied to the three channels (R14). -/
def Color.map (f : Channel → Channel) (c : Color) : Color :=
  ⟨f c.r, f c.g, f c.b⟩

end Sys2Proof
end

