-- ==== Sys2Proof/Syntax.lean ====
section
/-! DEFINITION. The instructions: one constructor per row of spec/opcode_table.json, the nine
commands of 30_encoding.md R69 and the twelve generators of 42_generators.md R92. -/

namespace Sys2Proof

inductive Instr where
  /-- NOP (R129). -/
  | nop
  /-- TICK, one scheduler call (R119). -/
  | tick
  /-- STEP_MODE (R131). -/
  | stepMode
  /-- STEP_SPEED (R132). -/
  | stepSpeed
  /-- STEP_BRIGHTNESS (R133). -/
  | stepBrightness
  /-- TOGGLE_ENABLE (R134). -/
  | toggleEnable
  /-- WHEEL p, a 9-bit position (R81, R66). -/
  | wheel (p : BitVec 9)
  /-- SCALE L, r, g, b (R87, R67). -/
  | scale (lvl : BitVec 3) (c : Color)
  /-- READ_REG idx (R135, R68). -/
  | readReg (idx : BitVec 4)
  /-- GEN_RAINBOW, MODE 0 (R93). A generator is never a host command: an accepted TICK runs it. -/
  | genRainbow
  /-- GEN_BREATHING, MODE 1 (R111). -/
  | genBreathing
  /-- GEN_PLASMA, MODE 2 (R98). -/
  | genPlasma
  /-- GEN_CHASE, MODE 3 (R112). -/
  | genChase
  /-- GEN_WIPE, MODE 4 (R113). -/
  | genWipe
  /-- GEN_SPARKLE, MODE 5 (R114). -/
  | genSparkle
  /-- GEN_SCANNER, MODE 6 (R115). -/
  | genScanner
  /-- GEN_WAVE, MODE 7 (R104). -/
  | genWave
  /-- GEN_DITHER, MODE 8 (R108). -/
  | genDither
  /-- GEN_SPARKLER, MODE 9 (R116). -/
  | genSparkler
  /-- GEN_FADE_IN, MODE 10 (R117). -/
  | genFadeIn
  /-- GEN_FADE_OUT, MODE 11 (R118). -/
  | genFadeOut
deriving DecidableEq, Repr

end Sys2Proof
end

