-- ==== Sys2Proof/WellFormed.lean ====
section
/-! DEFINITION. Which instructions are legal commands (30_encoding.md R69, R72): the value
constraints on SCALE's level and READ_REG's index. Every other operand is legal at every value. -/

namespace Sys2Proof

/-- SCALE's level must be in 1..5 (R72). -/
def levelLegal (lvl : BitVec 3) : Bool := decide (1 ≤ lvl.toNat ∧ lvl.toNat ≤ 5)

/-- READ_REG's index must be in 0..10 (R72). -/
def indexLegal (idx : BitVec 4) : Bool := decide (idx.toNat ≤ 10)

/-- The instruction is one a command word or a dispatch code can stand for. -/
def Instr.wf : Instr → Bool
  | .scale lvl _ => levelLegal lvl
  | .readReg idx => indexLegal idx
  | .nop | .tick | .stepMode | .stepSpeed | .stepBrightness | .toggleEnable | .wheel _ => true
  | .genRainbow | .genBreathing | .genPlasma | .genChase | .genWipe | .genSparkle => true
  | .genScanner | .genWave | .genDither | .genSparkler | .genFadeIn | .genFadeOut => true

/-- The instruction is a generator: selected by MODE, never a host command (R78, R90). -/
def Instr.isGenerator : Instr → Bool
  | .nop | .tick | .stepMode | .stepSpeed | .stepBrightness | .toggleEnable => false
  | .wheel _ | .scale _ _ | .readReg _ => false
  | .genRainbow | .genBreathing | .genPlasma | .genChase | .genWipe | .genSparkle => true
  | .genScanner | .genWave | .genDither | .genSparkler | .genFadeIn | .genFadeOut => true

end Sys2Proof
end

