-- ==== Sys2Proof/Decode.lean ====
section
/-! DEFINITION. Command words and dispatch codes (30_encoding.md): the decoder, total on all 2^32
words (R74), and after it the encoder, written from the same tables. -/

namespace Sys2Proof

/-- Why a word is illegal, by the rule that makes it so. All four have one outcome (R140, R143). -/
inductive IllegalReason where
  /-- A reserved OP (R70). -/
  | reservedOpcode
  /-- A 1 in an ARG bit the format requires to be 0 (R71). -/
  | reservedBits
  /-- SCALE with level 0, 6 or 7 (R72). -/
  | illegalLevel
  /-- READ_REG with index 11..15 (R72). -/
  | reservedIndex
  /-- A MODE value 12..15, which selects no generator (R78). -/
  | reservedDispatch
deriving DecidableEq, Repr

/-- What the decoder answers: one row of R69, or illegal with a reason. -/
inductive DecodeResult where
  | ok (i : Instr)
  | illegal (why : IllegalReason)
deriving DecidableEq, Repr

/-- OP, bits 31:24 of a command word (R64). -/
def opField (w : Word) : BitVec 8 := w.extractLsb' 24 8

/-- ARG, bits 23:0 of a command word (R64). -/
def argField (w : Word) : BitVec 24 := w.extractLsb' 0 24

/-- Format Z: ARG is zero (R65, R71). -/
def decodeZ (i : Instr) (arg : BitVec 24) : DecodeResult :=
  if arg = 0 then .ok i else .illegal .reservedBits

/-- Format WH: ARG[23:9] zero, P = ARG[8:0] (R65, R66). -/
def decodeWH (arg : BitVec 24) : DecodeResult :=
  if arg.extractLsb' 9 15 = 0 then .ok (.wheel (arg.extractLsb' 0 9)) else .illegal .reservedBits

/-- Format SC: LVL = ARG[23:21], CR = ARG[20:14], CG = ARG[13:7], CB = ARG[6:0] (R65, R67, R72). -/
def decodeSC (arg : BitVec 24) : DecodeResult :=
  if levelLegal (arg.extractLsb' 21 3) then
    .ok (.scale (arg.extractLsb' 21 3)
      ⟨arg.extractLsb' 14 7, arg.extractLsb' 7 7, arg.extractLsb' 0 7⟩)
  else .illegal .illegalLevel

/-- Format RR: ARG[23:4] zero, IDX = ARG[3:0] (R65, R68, R72). -/
def decodeRR (arg : BitVec 24) : DecodeResult :=
  if arg.extractLsb' 4 20 = 0 then
    if indexLegal (arg.extractLsb' 0 4) then .ok (.readReg (arg.extractLsb' 0 4))
    else .illegal .reservedIndex
  else .illegal .reservedBits

/-- The decoder of command words: the opcode map of R69; every other OP is reserved (R70). -/
def decode (w : Word) : DecodeResult :=
  match (opField w).toNat with
  | 0x00 => decodeZ .nop (argField w)
  | 0x01 => decodeZ .tick (argField w)
  | 0x02 => decodeZ .stepMode (argField w)
  | 0x03 => decodeZ .stepSpeed (argField w)
  | 0x04 => decodeZ .stepBrightness (argField w)
  | 0x05 => decodeZ .toggleEnable (argField w)
  | 0x10 => decodeWH (argField w)
  | 0x11 => decodeSC (argField w)
  | 0x20 => decodeRR (argField w)
  | _ => .illegal .reservedOpcode

/-- The generator a MODE value selects: `MODE_MAP` of this hardware (R78, R92). -/
def decodeDispatch (m : BitVec 4) : DecodeResult :=
  match m.toNat with
  | 0 => .ok .genRainbow
  | 1 => .ok .genBreathing
  | 2 => .ok .genPlasma
  | 3 => .ok .genChase
  | 4 => .ok .genWipe
  | 5 => .ok .genSparkle
  | 6 => .ok .genScanner
  | 7 => .ok .genWave
  | 8 => .ok .genDither
  | 9 => .ok .genSparkler
  | 10 => .ok .genFadeIn
  | 11 => .ok .genFadeOut
  | _ => .illegal .reservedDispatch

/-- How an instruction is selected: by a command word on the port, or by the 4-bit value of MODE
inside a TICK (R78). -/
inductive Encoding where
  | command (w : Word)
  | dispatch (m : BitVec 4)
deriving DecidableEq, Repr

/-- The decoder on either kind of encoding. -/
def decodeEncoding : Encoding → DecodeResult
  | .command w => decode w
  | .dispatch m => decodeDispatch m

/-- A command word from its two fields (R64). -/
def commandWord (op : BitVec 8) (arg : BitVec 24) : Word := op ++ arg

/-- SCALE's word (R65 format SC). -/
def scaleWord (lvl : BitVec 3) (c : Color) : Word :=
  commandWord 0x11#8 (lvl ++ c.r ++ c.g ++ c.b)

/-- READ_REG's word (R65 format RR). -/
def readRegWord (idx : BitVec 4) : Word := commandWord 0x20#8 (0#20 ++ idx)

/-- The encoder (R69, R75, R78). -/
def encode : Instr → Encoding
  | .nop => .command (commandWord 0x00#8 0#24)
  | .tick => .command (commandWord 0x01#8 0#24)
  | .stepMode => .command (commandWord 0x02#8 0#24)
  | .stepSpeed => .command (commandWord 0x03#8 0#24)
  | .stepBrightness => .command (commandWord 0x04#8 0#24)
  | .toggleEnable => .command (commandWord 0x05#8 0#24)
  | .wheel p => .command (commandWord 0x10#8 (0#15 ++ p))
  | .scale lvl c => .command (scaleWord lvl c)
  | .readReg idx => .command (readRegWord idx)
  | .genRainbow => .dispatch 0#4
  | .genBreathing => .dispatch 1#4
  | .genPlasma => .dispatch 2#4
  | .genChase => .dispatch 3#4
  | .genWipe => .dispatch 4#4
  | .genSparkle => .dispatch 5#4
  | .genScanner => .dispatch 6#4
  | .genWave => .dispatch 7#4
  | .genDither => .dispatch 8#4
  | .genSparkler => .dispatch 9#4
  | .genFadeIn => .dispatch 10#4
  | .genFadeOut => .dispatch 11#4

/-- The instruction, where the decoder gives one. -/
def DecodeResult.instr? : DecodeResult → Option Instr
  | .ok i => some i
  | .illegal _ => none

/-- The instruction a word of spec/opcode_table.json decodes to: a row of 32 bits is a command word,
a row of fewer bits (the DISPATCH rows, 4 bits of MODE) is a dispatch code (log 16). -/
def decodeTableWord (nbits w : Nat) : Option Instr :=
  if nbits = 32 then (decode (BitVec.ofNat 32 w)).instr?
  else if w < 16 then (decodeDispatch (BitVec.ofNat 4 w)).instr?
  else none

end Sys2Proof
end

