-- ==== Sys2Proof/Config.lean ====
section
/-! DEFINITION. The configuration of the engine (00_scope.md R7): the OPEN parameters as one record
that the state carries unchanged (log 1), the types of the parameters that have a value in this
hardware, and the free values the spec leaves open, as constants without a body. -/

namespace Sys2Proof

/-- The OPEN parameters of R7. They are fixed before the engine runs and do not change (R155). -/
structure Config where
  /-- `N`, the pixel count, 1..128 (R41). -/
  n : Nat
  /-- `SPEED_MAX`, the largest SPEED value, 1..255 (R18). -/
  speedMax : BitVec 8
  /-- `BASE_INTERVAL[m]` for m = 0..11, in milliseconds (R122). -/
  baseInterval : List (BitVec 16)
  /-- `DITHER_WAIT`, in milliseconds (R108). -/
  ditherWait : BitVec 16
deriving DecidableEq, Repr

/-- The ranges of R7: an engine outside them does not exist and is refused (R41, R139, U8). -/
abbrev Config.Valid (c : Config) : Prop :=
  1 ≤ c.n ∧ c.n ≤ 128 ∧ 1 ≤ c.speedMax.toNat ∧ c.baseInterval.length = 12

/-- The configuration that `State.reset` carries. DESIGN CHOICE (log 1): every one of the four is
OPEN in R7; these are the values of the spec's own programs (95_test_vectors.md section 3) and the
N = 32 of its end-to-end scenario. No statement rests on them. -/
def Config.reference : Config where
  n := 32
  speedMax := 3
  baseInterval := [20, 0, 40, 0, 0, 0, 0, 50, 30, 0, 0, 0]
  ditherWait := 10

/-- The brightness levels (R85): level 1 is full brightness. -/
inductive Level where
  | l1 | l2 | l3 | l4 | l5
deriving DecidableEq, Repr

/-- `SCALE2_FORM`, the three level-2 formulas of R86. -/
inductive Scale2Form where
  | mul3Shr2
  | halfPlusQuarter
  | minusQuarter
deriving DecidableEq, Repr

/-- One sine term of the plasma: an anchor point and a divisor (R94). -/
structure Anchor where
  ax : Nat
  ay : Nat
  div : Nat
deriving DecidableEq, Repr

/-- The eight opaque generators (R92, R110), by name. -/
inductive OpaqueMode where
  | breathing | chase | wipe | sparkle | scanner | sparkler | fadeIn | fadeOut
deriving DecidableEq, Repr

/-- The private state of one opaque generator. R30 leaves its content and width unspecified; any
content is coded as one natural number (DESIGN CHOICE, log 8). -/
abbrev PrivContent := Nat

/-- `PRIV[m]` for the eight opaque generators (R30), one home each. -/
structure PrivFile where
  breathing : PrivContent
  chase : PrivContent
  wipe : PrivContent
  sparkle : PrivContent
  scanner : PrivContent
  sparkler : PrivContent
  fadeIn : PrivContent
  fadeOut : PrivContent
deriving DecidableEq, Repr, Inhabited

/-- What the frame of an opaque generator may depend on: the engine state that R90 lets a generator
read, its own `PRIV[m]`, and the number of the draw (log 9). -/
structure OpaqueView where
  draw : Nat
  n : Nat
  brightness : BitVec 3
  animStep : BitVec 9
  frameStep : BitVec 8
  priv : PrivContent
deriving DecidableEq, Repr

/-- One frame of an opaque generator, the choices R110 lists: any finite sequence of `SetPixel`
(one `Flush` always follows), and possibly a new `PRIV[m]`, `ANIM_STEP` and `FRAME_STEP`. -/
structure OpaqueFrame where
  pixels : List (PixelIndex × Color)
  priv : Option PrivContent
  animStep : Option Nat
  frameStep : Option Nat
deriving DecidableEq, Repr, Inhabited

/-- FREE VALUE (U4, log 9): the frame an opaque generator draws; nothing constrains it. -/
opaque Config.opaqueFrame : OpaqueMode → OpaqueView → OpaqueFrame

/-- FREE VALUE (U2, log 6, log 7): what pixel `i` of SURF holds after reset number `d`. -/
opaque Config.surfDraw : (d i : Nat) → Color

/-- FREE VALUE (U2, log 6, log 7): what pixel `i` of STRIP holds after reset number `d`. -/
opaque Config.stripDraw : (d i : Nat) → Color

/-- FREE VALUE (U3, log 8): the private states after reset number `d`. -/
opaque Config.privDraw : (d : Nat) → PrivFile

end Sys2Proof
end

