-- ==== Sys2Proof/Machine/Constants.lean ====
section
/-! DEFINITION. The parameters of R7 that have a value in this hardware (log 19). `MODE_MAP` is
`decodeDispatch` in Decode.lean; `WHEEL_OOR` is `wheelCommand` in Machine/Wheel.lean; the sine
functions are in Machine/Sine.lean. -/

namespace Sys2Proof.Machine

/-- `NUMBER_OF_MODES` (R7). -/
def numberOfModes : Nat := 12

/-- `NUMBER_BRIGHTNESS_LEVELS` (R7, R19). -/
def numberBrightnessLevels : Nat := 5

/-- The largest ANIM_STEP value (R25). -/
def animStepMax : Nat := 384

/-- The number of wheel positions (R31, R79). -/
def wheelPositions : Nat := 384

/-- `Q`, the fixed-point scale of both sine functions (R8). -/
def sineScale : Nat := 16384

/-- `SCALE2_FORM` of this hardware (R86, D10). -/
def scale2Form : Scale2Form := .mul3Shr2

/-- `STRIP_EN_RESET` (R7, D22). -/
def stripEnReset : Bool := true

/-- The plasma anchors of this hardware, `PLASMA_K` = 4 of them (R94, D18). -/
def plasmaAnchors : List Anchor :=
  [⟨128, 128, 8⟩, ⟨64, 64, 8⟩, ⟨192, 64, 7⟩, ⟨192, 100, 8⟩]

end Sys2Proof.Machine
end

