-- ==== Sys2Proof/Machine/State.lean ====
section
/-! DEFINITION. The state of the engine, of the Pixel Surface it writes and of the inputs it reads
(10_state.md, 20_memory.md); the outcomes of a step; the state after reset (R36, R151). -/

namespace Sys2Proof.Machine

/-- The engine's registers (R15), each at its width. -/
structure Regs where
  /-- MODE (R17). -/
  mode : BitVec 4
  /-- SPEED (R18). -/
  speed : BitVec 8
  /-- BRIGHTNESS (R19). -/
  brightness : BitVec 3
  /-- ANIM_STEP (R25). -/
  animStep : BitVec 9
  /-- FRAME_STEP (R26). -/
  frameStep : BitVec 8
  /-- LAST_FRAME (R21). -/
  lastFrame : Millis
  /-- INTERVAL (R22). -/
  interval : BitVec 16
  /-- STATUS.ILL, bit 0, sticky (R23). STATUS is held as its two fields (log 17). -/
  ill : Bool
  /-- STATUS.STRIP_EN, bit 1 (R23). -/
  stripEn : Bool
  /-- RESULT (R24). -/
  result : Word
  /-- WAVE_COLOR (R27). -/
  waveColor : Color
  /-- DITHER_COLOR (R28). -/
  ditherColor : Color
  /-- BUSY (R29). -/
  busy : Bool
  /-- DSUB, the next Dither sub-step (R29). -/
  dsub : BitVec 8
  /-- DT, the time of the most recent sub-step (R29). -/
  dt : Millis
  /-- DNOW, the time of the TICK that started the Dither frame (R29). -/
  dnow : Millis
  /-- PRIV[m] (R30). -/
  priv : PrivFile
deriving DecidableEq, Repr

/-- A Pixel Surface event (R49, R51), as the pixel port carries it (R40). -/
inductive Event where
  | setPixel (idx : PixelIndex) (c : Color)
  | flush
deriving DecidableEq, Repr

/-- The external Pixel Surface and what it has been sent (R46). -/
structure PixelSurface where
  /-- SURF, the surface the engine writes: pixel `i` is entry `i`. -/
  surf : List Color
  /-- STRIP, the image the physical strip last received. -/
  strip : List Color
  /-- Every event so far, oldest first (R6, R54; the model's record, log 5). -/
  events : List Event
deriving DecidableEq, Repr

/-- What environment and host do before one engine step (R143, log 2): the pins take these values,
and the host issues these further words. -/
structure EnvMove where
  nowMs : Millis
  colorIn : Color
  rst : Bool
  offers : List Word
deriving DecidableEq, Repr

/-- The engine's inputs. -/
structure Ports where
  /-- `now_ms` (R56). -/
  nowMs : Millis
  /-- `color_in` (R57). -/
  colorIn : Color
  /-- `rst` (R151). -/
  rst : Bool
  /-- The reset that `rst` applies has begun in an earlier step and `rst` has been 1 since: the model's
  record that later steps belong to the same reset (log 7). -/
  rstHeld : Bool
  /-- The words the host has issued and the engine has not accepted, oldest first: `cmd_valid` is 1
  when there is one, and the first is on `cmd_word` (R63, log 3). -/
  port : List Word
  /-- The moves of environment and host still to come, soonest first (log 2). -/
  env : List EnvMove
deriving DecidableEq, Repr

/-- The whole state: configuration (never changed, R155), registers, Pixel Surface, inputs, and the
number of free draws taken so far (log 10). -/
structure State where
  cfg : Config
  regs : Regs
  px : PixelSurface
  io : Ports
  draws : Nat
deriving DecidableEq, Repr

/-- Why a step ends in a fault. -/
inductive Fault where
  /-- `Illegal` (R140): raised by the step for a word that R70 to R72 make illegal, and by the
  meanings of SCALE and READ_REG for an operand R72 makes illegal. `word` is its information and
  `after` the engine's state after it: the word consumed, STATUS.ILL set, nothing else changed; a
  run that continues past the fault continues from there (log 4). Safe. -/
  | illegal (word : Word) (after : State)
deriving DecidableEq, Repr

/-- Why a step is refused. -/
inductive Refusal where
  /-- An instruction that has no meaning in this model; raised by no arm of `exec`. Safe. -/
  | notModelled (mnemonic : String)
  /-- Raised by `step` when the configuration is outside the ranges of R7: there is no engine
  (R41, R139, U8). Safe. -/
  | badConfiguration
  /-- Raised by an accepted TICK with MODE in 12..15, which selects nothing and is never held
  (R17, R78, log 13). Safe. -/
  | modeSelectsNothing
  /-- Raised where a color is to be scaled with BRIGHTNESS 0, 6 or 7, which is never held (R19)
  and for which R85 gives no function (log 13). Safe. -/
  | brightnessNeverHeld
deriving DecidableEq, Repr

/-- The outcome of a step of this machine. -/
abbrev Result := Host.Outcome State Fault Refusal

/-- The registers right after reset (R36); PRIV is unspecified there and is given. -/
def Regs.reset (priv : PrivFile) : Regs where
  mode := 0
  speed := 0
  brightness := 1
  animStep := 0
  frameStep := 0
  lastFrame := 0
  interval := 0
  ill := false
  stripEn := stripEnReset
  result := 0
  waveColor := ⟨0, 0, 0⟩
  ditherColor := ⟨0, 0, 0⟩
  busy := false
  dsub := 0
  dt := 0
  dnow := 0
  priv := priv

/-- N colors drawn freely (R47). -/
def drawnColors (n : Nat) (draw : Nat → Color) : List Color :=
  (List.range n).map draw

/-- The machine after power-on with a given configuration (R36, R151, R152): the registers at their
reset values, no event, SURF, STRIP and PRIV drawn (log 6, log 8), the inputs quiet (log 11). -/
def State.resetWith (cfg : Config) : State where
  cfg := cfg
  regs := Regs.reset (Config.privDraw 0)
  px :=
    { surf := drawnColors cfg.n (Config.surfDraw 0)
      strip := drawnColors cfg.n (Config.stripDraw 0)
      events := [] }
  io :=
    { nowMs := 0
      colorIn := ⟨0, 0, 0⟩
      rst := false
      rstHeld := false
      port := []
      env := [] }
  draws := 1

/-- The machine right after reset, with the configuration of log 1. -/
def State.reset : State := State.resetWith Config.reference

end Sys2Proof.Machine
end

