-- ==== Sys2Proof/Machine/Operands.lean ====
section
/-! DEFINITION. Reading and forming operands: colors packed and unpacked (R13), the brightness level
(R19, R67), the private state of an opaque generator (R30), what an opaque generator may read (R90). -/

namespace Sys2Proof.Machine

/-- The packed 21-bit form: r in bits 20:14, g in bits 13:7, b in bits 6:0 (R13). -/
def packColor (c : Color) : BitVec 21 := c.r ++ c.g ++ c.b

/-- The color of a packed 21-bit value (R13). -/
def unpackColor (v : BitVec 21) : Color :=
  ⟨v.extractLsb' 14 7, v.extractLsb' 7 7, v.extractLsb' 0 7⟩

/-- A color in a 32-bit register: `zext_32` of its packed form (R13, R77). -/
def colorWord (c : Color) : Word := (packColor c).setWidth 32

/-- The level a 3-bit value stands for; 0, 6 and 7 stand for none (R19, R67). -/
def levelOf (v : BitVec 3) : Option Level :=
  match v.toNat with
  | 1 => some .l1
  | 2 => some .l2
  | 3 => some .l3
  | 4 => some .l4
  | 5 => some .l5
  | _ => none

/-- The number of a level, 1..5. -/
def levelNumber : Level → Nat
  | .l1 => 1
  | .l2 => 2
  | .l3 => 3
  | .l4 => 4
  | .l5 => 5

/-- Read `PRIV[m]` (R30). -/
def readPriv (f : PrivFile) : OpaqueMode → PrivContent
  | .breathing => f.breathing
  | .chase => f.chase
  | .wipe => f.wipe
  | .sparkle => f.sparkle
  | .scanner => f.scanner
  | .sparkler => f.sparkler
  | .fadeIn => f.fadeIn
  | .fadeOut => f.fadeOut

/-- Write `PRIV[m]` (R30). -/
def writePriv (f : PrivFile) (m : OpaqueMode) (v : PrivContent) : PrivFile :=
  match m with
  | .breathing => { f with breathing := v }
  | .chase => { f with chase := v }
  | .wipe => { f with wipe := v }
  | .sparkle => { f with sparkle := v }
  | .scanner => { f with scanner := v }
  | .sparkler => { f with sparkler := v }
  | .fadeIn => { f with fadeIn := v }
  | .fadeOut => { f with fadeOut := v }

/-- What opaque generator `m` may read in this state (R90, R110). -/
def opaqueView (m : OpaqueMode) (s : State) : OpaqueView where
  draw := s.draws
  n := s.cfg.n
  brightness := s.regs.brightness
  animStep := s.regs.animStep
  frameStep := s.regs.frameStep
  priv := readPriv s.regs.priv m

/-- `Now()`: the value of `now_ms` (R56). -/
def now (s : State) : Millis := s.io.nowMs

/-- `DrawColor()`: the value of `color_in` (R57). -/
def drawColor (s : State) : Color := s.io.colorIn

/-- `(t - base) mod 2^32`, the elapsed milliseconds (R121, R108). -/
def elapsedSince (base t : Millis) : Nat := (t - base).toNat

end Sys2Proof.Machine
end

