-- ==== Sys2Proof/Machine/Flags.lean ====
section
/-! DEFINITION. The engine's flags: STATUS.ILL, STATUS.STRIP_EN and BUSY (R23, R29, R32). There are
no condition codes. -/

namespace Sys2Proof.Machine

/-- STATUS as a 32-bit word: ILL in bit 0, STRIP_EN in bit 1, bits 31:2 zero (R23, log 17). -/
def statusWord (r : Regs) : Word :=
  (0#30 ++ BitVec.ofBool r.stripEn ++ BitVec.ofBool r.ill : BitVec 32)

/-- Set the sticky ILL bit (R140). -/
def setIll (r : Regs) : Regs := { r with ill := true }

/-- Flip STRIP_EN (R134). -/
def flipStripEn (r : Regs) : Regs := { r with stripEn := !r.stripEn }

/-- The `cmd_ready` output, NOT BUSY (R63). -/
def cmdReady (s : State) : Bool := !s.regs.busy

/-- The `cmd_valid` input: the host offers a word (R63). -/
def cmdValid (s : State) : Bool := !s.io.port.isEmpty

/-- The `strip_en` output (R61). -/
def stripEnOut (s : State) : Bool := s.regs.stripEn

/-- The `result[31:0]` output (R24). -/
def resultOut (s : State) : Word := s.regs.result

end Sys2Proof.Machine
end

