-- ==== Sys2Proof/Machine/Ops.lean ====
section
/-! DEFINITION. The named operations the meanings share: the Pixel Surface events (R49, R51), a frame
of them (R90), register writes, the frame completion (R124), the illegal command (R140), reset (R151),
the command port (R63) and the environment's moves (R143). -/

namespace Sys2Proof.Machine

/-- A pixel array of the surface is in its one form when it has exactly `n` entries (R46). -/
abbrev Memory.wf (n : Nat) (m : List Color) : Prop := m.length = n

/-- What pixel `i` of an array holds; an index outside the array is no pixel (R45). -/
def readPixel (m : List Color) (i : Nat) : Option Color := m[i]?

/-- Store at pixel `idx` when it is below `n`; otherwise nothing (R49, R50). -/
def writePixel (n : Nat) (m : List Color) (idx : PixelIndex) (c : Color) : List Color :=
  if idx.toNat < n then m.set idx.toNat c else m

/-- `SetPixel(idx, c)`: the event is recorded, clipped or not (R49, R50). -/
def PixelSurface.setPixel (n : Nat) (idx : PixelIndex) (c : Color) (p : PixelSurface) :
    PixelSurface :=
  { p with events := p.events ++ [.setPixel idx c], surf := writePixel n p.surf idx c }

/-- `Flush()`: STRIP receives all of SURF (R51). -/
def PixelSurface.flush (p : PixelSurface) : PixelSurface :=
  { p with events := p.events ++ [.flush], strip := p.surf }

/-- The `SetPixel`s of a list, in its order (R54). -/
def PixelSurface.setPixels (n : Nat) (ps : List (PixelIndex × Color)) (p : PixelSurface) :
    PixelSurface :=
  ps.foldl (fun q x => q.setPixel n x.1 x.2) p

/-- One frame: its `SetPixel`s in order, then exactly one `Flush` (R90). -/
def PixelSurface.frame (n : Nat) (ps : List (PixelIndex × Color)) (p : PixelSurface) :
    PixelSurface :=
  (p.setPixels n ps).flush

/-- The state after the surface has received a frame. -/
def emitFrame (ps : List (PixelIndex × Color)) (s : State) : State :=
  { s with px := s.px.frame s.cfg.n ps }

/-- Write RESULT (R77). -/
def writeResult (v : Word) (s : State) : State :=
  { s with regs.result := v }

/-- The advance of ANIM_STEP: 0..384, period 385 (R124). -/
def advanceAnim (a : BitVec 9) : BitVec 9 :=
  if animStepMax ≤ a.toNat then 0 else a + 1

/-- The advance of FRAME_STEP: 0..N, period N+1 (R124). -/
def advanceFrame (n : Nat) (f : BitVec 8) : BitVec 8 :=
  if n ≤ f.toNat then 0 else f + 1

/-- `COMPLETE(t)`, the frame completion (R124). -/
def complete (t : Millis) (s : State) : State :=
  { s with
    regs.animStep := advanceAnim s.regs.animStep
    regs.frameStep := advanceFrame s.cfg.n s.regs.frameStep
    regs.lastFrame := t }

/-- The engine after an illegal command: STATUS.ILL is 1 and nothing else changes (R140). -/
def markIllegal (s : State) : State := { s with regs := setIll s.regs }

/-- `raise Illegal(word)`: the one abnormal outcome of the engine (R140, log 4). There is no trap
entry beside it and no return (R144, R145). -/
def raiseIllegal (w : Word) (s : State) : Result := .fault (.illegal w (markIllegal s))

/-- The word an instruction stands for on the port; a generator has none (R78). -/
def wordOf (i : Instr) : Word :=
  match encode i with
  | .command w => w
  | .dispatch _ => 0

/-- The Dither frame in progress has flushed: `Flush` sends all N pixels (R51), so every pixel of STRIP
is one already flushed (R151). -/
def ditherFlushed (r : Regs) : Bool := r.busy && decide (r.dsub ≠ 0)

/-- STRIP after a step with `rst` at 1: a draw (R47, R152), but the image that an abandoned Dither frame
has flushed stays on the strip (R151), and a later step of the same reset changes nothing (log 7). -/
def stripAfterReset (s : State) : List Color :=
  if s.io.rstHeld || ditherFlushed s.regs then s.px.strip
  else drawnColors s.cfg.n (Config.stripDraw s.draws)

/-- The step in which `rst` is 1 (R151): every register at its reset value, PRIV and the Pixel Surface
drawn anew (R36, R47; STRIP as `stripAfterReset` says). No event (R152); the port waits (log 18). -/
def applyReset (s : State) : State :=
  { s with
    regs := Regs.reset (Config.privDraw s.draws)
    px :=
      { s.px with
        surf := drawnColors s.cfg.n (Config.surfDraw s.draws)
        strip := stripAfterReset s }
    io.rstHeld := true
    draws := s.draws + 1 }

/-- The move of environment and host before an engine step (R143, log 2): the next one of the list;
with none left the pins keep their values. -/
def envStep (s : State) : State :=
  match s.io.env with
  | [] => s
  | m :: rest =>
    { s with io :=
      { nowMs := m.nowMs
        colorIn := m.colorIn
        rst := m.rst
        rstHeld := s.io.rstHeld && m.rst
        port := s.io.port ++ m.offers
        env := rest } }

/-- The state with the words `rest` left on the port. -/
def withPort (rest : List Word) (s : State) : State := { s with io.port := rest }

/-- Take the word on the port, if there is one (R63): the word, and the state with it consumed. -/
def acceptWord (s : State) : Option (Word × State) :=
  match s.io.port with
  | [] => none
  | w :: rest => some (w, withPort rest s)

/-- Use BRIGHTNESS as a level (R91); the values it never holds stand for none (R19, log 13). -/
def withBrightness (s : State) (k : Level → Result) : Result :=
  match levelOf s.regs.brightness with
  | some l => k l
  | none => .refused .brightnessNeverHeld

/-- The word that makes the very next step run the table row `w` of `nbits` bits: the row's own word,
or TICK for a dispatch row (log 16). -/
def fetchedWord (nbits w : Nat) : Word :=
  if nbits = 32 then BitVec.ofNat 32 w else wordOf .tick

/-- The registers with which the very next step accepts a command, and for a dispatch row with MODE
selecting it and INTERVAL 0, so that the TICK is not gated (log 16). -/
def fetchRegs (nbits w : Nat) (r : Regs) : Regs :=
  if nbits = 32 then { r with busy := false, dsub := 0 }
  else { r with busy := false, dsub := 0, mode := BitVec.ofNat 4 w, interval := 0 }

end Sys2Proof.Machine
end

