-- ==== Sys2Proof/Machine/Control.lean ====
section
/-! DEFINITION. The control commands (44_control_commands.md): NOP, the step events, the strip enable
and the register read. -/

namespace Sys2Proof.Machine

/-- NOP (R129). -/
def execNop (s : State) : Result := .next s

/-- The next MODE: 11 wraps to 0 (R131). -/
def nextMode (m : BitVec 4) : BitVec 4 :=
  if numberOfModes - 1 ≤ m.toNat then 0 else m + 1

/-- STEP_MODE (R131): the counters are cleared, INTERVAL and the mode-local state are kept. -/
def execStepMode (s : State) : Result :=
  .next { s with
    regs.mode := nextMode s.regs.mode
    regs.animStep := 0
    regs.frameStep := 0 }

/-- The next SPEED: SPEED_MAX wraps to 0 (R132). -/
def nextSpeed (speedMax sp : BitVec 8) : BitVec 8 :=
  if speedMax.toNat ≤ sp.toNat then 0 else sp + 1

/-- STEP_SPEED (R132). -/
def execStepSpeed (s : State) : Result :=
  .next { s with regs.speed := nextSpeed s.cfg.speedMax s.regs.speed }

/-- The next BRIGHTNESS: 5 wraps to 1 (R133). -/
def nextBrightness (b : BitVec 3) : BitVec 3 :=
  if numberBrightnessLevels ≤ b.toNat then 1 else b + 1

/-- STEP_BRIGHTNESS (R133). -/
def execStepBrightness (s : State) : Result :=
  .next { s with regs.brightness := nextBrightness s.regs.brightness }

/-- TOGGLE_ENABLE (R134). -/
def execToggleEnable (s : State) : Result :=
  .next { s with regs := flipStripEn s.regs }

/-- The register read map (R34): indices 11..15 are reserved. -/
def readRegister (idx : BitVec 4) (s : State) : Option Word :=
  match idx.toNat with
  | 0 => some (s.regs.mode.setWidth 32)
  | 1 => some (s.regs.speed.setWidth 32)
  | 2 => some (s.regs.brightness.setWidth 32)
  | 3 => some (s.regs.animStep.setWidth 32)
  | 4 => some (s.regs.frameStep.setWidth 32)
  | 5 => some s.regs.lastFrame
  | 6 => some (s.regs.interval.setWidth 32)
  | 7 => some (statusWord s.regs)
  | 8 => some (BitVec.ofNat 32 s.cfg.n)
  | 9 => some (colorWord s.regs.waveColor)
  | 10 => some (colorWord s.regs.ditherColor)
  | _ => none

/-- READ_REG (R135): a reserved index is illegal. -/
def execReadReg (idx : BitVec 4) (s : State) : Result :=
  match readRegister idx s with
  | some v => .next (writeResult v s)
  | none => raiseIllegal (readRegWord idx) s

end Sys2Proof.Machine
end

