-- ==== Sys2Proof/Machine/Scaler.lean ====
section
/-! DEFINITION. The Brightness Scaler (41_brightness_scaler.md): its function and the SCALE command. -/

namespace Sys2Proof.Machine

/-- `S2(v)`, the level-2 formula, for each SCALE2_FORM (R86). -/
def scale2 (form : Scale2Form) (v : Nat) : Nat :=
  match form with
  | .mul3Shr2 => (3 * v) >>> 2
  | .halfPlusQuarter => (v >>> 1) + (v >>> 2)
  | .minusQuarter => v - (v >>> 2)

/-- `S_L(v)` on a channel value (R85). -/
def scaleValue (form : Scale2Form) (l : Level) (v : Nat) : Nat :=
  match l with
  | .l1 => v
  | .l2 => scale2 form v
  | .l3 => v >>> 1
  | .l4 => v >>> 2
  | .l5 => v >>> 3

/-- `S_L` on a 7-bit channel, with this hardware's SCALE2_FORM. -/
def scaleChannel (l : Level) (v : Channel) : Channel :=
  BitVec.ofNat 7 (scaleValue scale2Form l v.toNat)

/-- `SCALE(c, L)`, per channel (R85, R14). -/
def scaleColor (l : Level) (c : Color) : Color := c.map (scaleChannel l)

/-- SCALE (R87): scales by its own operand; levels 0, 6 and 7 are illegal. -/
def execScale (lvl : BitVec 3) (c : Color) (s : State) : Result :=
  match levelOf lvl with
  | some l => .next (writeResult (colorWord (scaleColor l c)) s)
  | none => raiseIllegal (scaleWord lvl c) s

end Sys2Proof.Machine
end

