-- ==== Sys2Proof/Machine/Dither.lean ====
section
/-! DEFINITION. The Dither generator (42_generators.md R105 to R109): its start, and the two engine
steps DSTEP and DEND of the frame in progress. -/

namespace Sys2Proof.Machine

/-- `b`, the least `b` with `2^b ≥ n` (R106). -/
def ditherBits (n : Nat) : Nat := if n ≤ 1 then 0 else Nat.log2 (n - 1) + 1

/-- `M = 2^b`, the number of sub-steps (R106). -/
def ditherSubSteps (n : Nat) : Nat := 2 ^ ditherBits n

/-- `rev_b(i)`: the `b` low bits of `i` in reverse order (R107). -/
def reverseBits : (b i : Nat) → Nat
  | 0, _ => 0
  | b + 1, i => i % 2 * 2 ^ b + reverseBits b (i / 2)

/-- The state after the start of a Dither frame (R108). -/
def startDither (s : State) : State :=
  { s with
    regs.ditherColor := drawColor s
    regs.busy := true
    regs.dsub := 0 }

/-- GEN_DITHER (R108), the start of its frame; the TICK has set DNOW. -/
def execGenDither (s : State) : Result := .next (startDither s)

/-- `(Now() - DT) mod 2^32 >= DITHER_WAIT` (R108). -/
def ditherWaited (s : State) : Bool :=
  decide (s.cfg.ditherWait.toNat ≤ elapsedSince s.regs.dt (now s))

/-- DSTEP is enabled: BUSY, DSUB < M, and DSUB = 0 or the wait is over (R108). -/
def dstepEnabled (s : State) : Bool :=
  s.regs.busy && decide (s.regs.dsub.toNat < ditherSubSteps s.cfg.n)
    && (decide (s.regs.dsub = 0) || ditherWaited s)

/-- DEND is enabled: BUSY, DSUB = M and the wait is over (R108). -/
def dendEnabled (s : State) : Bool :=
  s.regs.busy && decide (s.regs.dsub.toNat = ditherSubSteps s.cfg.n) && ditherWaited s

/-- The pixel index of the next sub-step (R108). -/
def ditherIndex (s : State) : PixelIndex :=
  BitVec.ofNat 16 (reverseBits (ditherBits s.cfg.n) s.regs.dsub.toNat)

/-- The state after a sub-step at level `l` (R108): one pixel, one flush. -/
def subStepDither (l : Level) (s : State) : State :=
  emitFrame [(ditherIndex s, scaleColor l s.regs.ditherColor)]
    { s with
      regs.dt := now s
      regs.dsub := s.regs.dsub + 1 }

/-- DSTEP (R108). -/
def dstep (s : State) : Result := withBrightness s fun l => .next (subStepDither l s)

/-- The state after the end of a Dither frame (R108): the frame completion with the TICK's own time,
and the port is free again. -/
def endDither (s : State) : State :=
  { complete s.regs.dnow s with
    regs.busy := false
    regs.dsub := 0 }

/-- DEND (R108). -/
def dend (s : State) : Result := .next (endDither s)

/-- The engine step while a Dither frame is in progress; when neither is enabled the engine holds
until the environment advances `now_ms` (R108, R143, R160). -/
def ditherStep (s : State) : Result :=
  if dstepEnabled s then dstep s
  else if dendEnabled s then dend s
  else .next s

end Sys2Proof.Machine
end

