-- ==== Sys2Proof/Machine/Sine.lean ====
section
/-! DEFINITION. The two fixed-point sine functions (R95, R101) and the integer square root (R10), in
exact integer arithmetic.

The angles are fixed-point numbers with 64 fraction bits. `sine64` is the Taylor polynomial of degree
23 on [0, π/2]; its error is far below the distance of any value of R95 or R101 from a rounding tie,
so the rounded results are those of the rules' own formulas with real sines (log 12). -/

namespace Sys2Proof.Machine

/-- 1, as a number with 64 fraction bits. -/
def one64 : Nat := 2 ^ 64

/-- π, rounded down to 64 fraction bits. -/
def pi64 : Nat := 57952155664616982739

/-- The Horner scheme of sin(y)/y: the factors 1 - y²/(2j(2j+1))·(…) for j = `j`, `j + 1`, …, with
`k` of them left. -/
def sineFactor (ySq : Nat) : (k j : Nat) → Nat
  | 0, _ => one64
  | k + 1, j => one64 - ySq * sineFactor ySq k (j + 1) / (one64 * (2 * j) * (2 * j + 1))

/-- sin of an angle in [0, π/2], both with 64 fraction bits. -/
def sine64 (y : Nat) : Nat := y * sineFactor (y * y / one64) 11 1 / one64

/-- 16384 · sin of an angle in [0, π/2], rounded to the nearest integer (R8). -/
def scaledSine (y : Nat) : Nat := (sineScale * sine64 y + one64 / 2) / one64

/-- `x` with the sign of an odd number of half turns. -/
def halfTurns (q x : Nat) : Int := if q % 2 = 0 then (x : Int) else -(x : Int)

/-- `PSIN(D, div)`, the plasma sine: `rha(16384 · sin(D / div))`, `D / div` in radians (R95). The
angle is reduced to a number of half turns and a rest in [0, π], and the rest to [0, π/2]. -/
def psin (d div : Nat) : Int :=
  let x := d * one64 / div
  halfTurns (x / pi64) (scaledSine (min (x % pi64) (pi64 - x % pi64)))

/-- `WSIN(k)` for pixel count `n`, the wave sine: `rha(16384 · sin(π k / n))` (R101). -/
def wsin (n k : Nat) : Int :=
  halfTurns (k / n) (scaledSine (pi64 * min (k % n) (n - k % n) / n))

/-- The binary digits of `isqrt`, from digit `b - 1` down, on top of the root `r` found so far. -/
def isqrtFrom (x : Nat) : (b r : Nat) → Nat
  | 0, r => r
  | b + 1, r => isqrtFrom x b (if (r + 2 ^ b) * (r + 2 ^ b) ≤ x then r + 2 ^ b else r)

/-- `isqrt(x)`, the largest `r` with `r * r ≤ x` (R10). -/
def isqrt (x : Nat) : Nat := isqrtFrom x (Nat.log2 x / 2 + 1) 0

end Sys2Proof.Machine
end

