-- ==== Sys2Proof/Machine/Wheel.lean ====
section
/-! DEFINITION. The Color Wheel (40_color_wheel.md): its function and the WHEEL command. -/

namespace Sys2Proof.Machine

/-- A 7-bit channel of a number in 0..127. -/
def channel (v : Nat) : Channel := BitVec.ofNat 7 v

/-- `WHEEL(p)` for a position 0..383: three 128-wide bands (R79). -/
def wheel (p : Nat) : Color :=
  let m := p % 128
  match p / 128 with
  | 0 => ⟨channel (127 - m), channel m, 0⟩
  | 1 => ⟨0, channel (127 - m), channel m⟩
  | _ => ⟨channel m, 0, channel (127 - m)⟩

/-- The WHEEL command's lookup: positions 384..511 are reduced mod 384, WHEEL_OOR being
REDUCE_MOD_384 in this hardware (R80, D11). -/
def wheelCommand (p : Nat) : Color :=
  if p ≤ 383 then wheel p else wheel (p % wheelPositions)

/-- WHEEL (R81). -/
def execWheel (p : BitVec 9) (s : State) : Result :=
  .next (writeResult (colorWord (wheelCommand p.toNat)) s)

end Sys2Proof.Machine
end

