-- ==== Sys2Proof/Machine/Exact.lean ====
section
/-! DEFINITION. The generators with exact rules that draw a whole frame at once (42_generators.md):
GEN_RAINBOW, GEN_PLASMA, GEN_WAVE. Each writes `SCALE(c, BRIGHTNESS)`, never `c` itself (R84, R91). -/

namespace Sys2Proof.Machine

/-- The pixels 0..n-1 in that order, each with its color scaled by the level (R91). -/
def scaledPixels (n : Nat) (l : Level) (color : Nat → Color) : List (PixelIndex × Color) :=
  (List.range n).map fun i => (BitVec.ofNat 16 i, scaleColor l (color i))

/-- The wheel position of Rainbow pixel `i` (R93, D33). -/
def rainbowPosition (n anim i : Nat) : Nat := (i * 384 / n + anim) % 384

/-- The unscaled color of Rainbow pixel `i` (R93). -/
def rainbowColor (s : State) (i : Nat) : Color :=
  wheel (rainbowPosition s.cfg.n s.regs.animStep.toNat i)

/-- GEN_RAINBOW (R93). -/
def execGenRainbow (s : State) : Result :=
  withBrightness s fun l => .next (emitFrame (scaledPixels s.cfg.n l (rainbowColor s)) s)

/-- `D_j`, the discretized distance of the sample point `(px, y)` to an anchor (R96). -/
def plasmaDistance (px y : Nat) (a : Anchor) : Nat :=
  let dx : Int := (px : Int) - a.ax
  let dy : Int := (y : Int) - a.ay
  isqrt (dx * dx + dy * dy).toNat

/-- `S`, the sum of the sine terms at `(px, y)` (R97). -/
def plasmaSum (anchors : List Anchor) (px y : Nat) : Int :=
  (anchors.map fun a => psin (plasmaDistance px y a) a.div).sum

/-- `(S // 128) mod 384`, floor division and mathematical remainder (R97). -/
def plasmaPosition (sum : Int) : Nat := (sum / 128 % 384).toNat

/-- `px`, the sample abscissa: FRAME_STEP + ANIM_STEP (R96). -/
def plasmaAbscissa (s : State) : Nat := s.regs.frameStep.toNat + s.regs.animStep.toNat

/-- The unscaled color of Plasma pixel `y` (R98). -/
def plasmaColor (s : State) (y : Nat) : Color :=
  wheel (plasmaPosition (plasmaSum plasmaAnchors (plasmaAbscissa s) y))

/-- GEN_PLASMA (R98). -/
def execGenPlasma (s : State) : Result :=
  withBrightness s fun l => .next (emitFrame (scaledPixels s.cfg.n l (plasmaColor s)) s)

/-- `BLEND(v, s)` on a channel value: toward white for a sine that is not negative, toward black
otherwise (R102). -/
def blendValue (v sine : Int) : Int :=
  if 0 ≤ sine then 127 - (127 - v) * (16384 - sine) / 16384
  else v * (16384 + sine) / 16384

/-- `BLEND` on a 7-bit channel (R102). -/
def blendChannel (sine : Int) (v : Channel) : Channel := BitVec.ofInt 7 (blendValue v.toNat sine)

/-- WAVE_COLOR as a Wave frame uses it: drawn when ANIM_STEP is 0, else kept (R103). -/
def waveBase (s : State) : Color :=
  if s.regs.animStep = 0 then drawColor s else s.regs.waveColor

/-- The unscaled color of Wave pixel `i`, over the base color `c` (R104). -/
def waveColor (c : Color) (s : State) (i : Nat) : Color :=
  c.map (blendChannel (wsin s.cfg.n (s.regs.animStep.toNat + i)))

/-- GEN_WAVE (R104). -/
def execGenWave (s : State) : Result :=
  withBrightness s fun l =>
    .next (emitFrame (scaledPixels s.cfg.n l (waveColor (waveBase s) s))
      { s with regs.waveColor := waveBase s })

end Sys2Proof.Machine
end

