-- ==== Sys2Proof/Machine/Opaque.lean ====
section
/-! DEFINITION. The eight opaque generators (42_generators.md R110 to R118). Their frames are free
values within the bounds of R110 (log 9); all else is fixed by R110 and R90. -/

namespace Sys2Proof.Machine

/-- ANIM_STEP after an opaque frame: unchanged, or any value in 0..384 (R110). -/
def opaqueAnim (choice : Option Nat) (a : BitVec 9) : BitVec 9 :=
  match choice with
  | none => a
  | some v => BitVec.ofNat 9 (v % (animStepMax + 1))

/-- FRAME_STEP after an opaque frame: unchanged, or any value in 0..N (R110). -/
def opaqueFrameStep (n : Nat) (choice : Option Nat) (f : BitVec 8) : BitVec 8 :=
  match choice with
  | none => f
  | some v => BitVec.ofNat 8 (v % (n + 1))

/-- PRIV after an opaque frame of generator `m`: only `PRIV[m]` may change (R30, R110). -/
def opaquePriv (m : OpaqueMode) (choice : Option PrivContent) (f : PrivFile) : PrivFile :=
  match choice with
  | none => f
  | some v => writePriv f m v

/-- The effect of one given frame of generator `m` (R110). -/
def applyOpaqueFrame (m : OpaqueMode) (f : OpaqueFrame) (s : State) : State :=
  { emitFrame f.pixels s with
    regs.priv := opaquePriv m f.priv s.regs.priv
    regs.animStep := opaqueAnim f.animStep s.regs.animStep
    regs.frameStep := opaqueFrameStep s.cfg.n f.frameStep s.regs.frameStep }

/-- One frame of opaque generator `m`: the drawn frame, and one more draw taken (R110). -/
def runOpaque (m : OpaqueMode) (s : State) : State :=
  { applyOpaqueFrame m (Config.opaqueFrame m (opaqueView m s)) s with draws := s.draws + 1 }

/-- GEN_BREATHING (R111). -/
def execGenBreathing (s : State) : Result := .next (runOpaque .breathing s)

/-- GEN_CHASE (R112). -/
def execGenChase (s : State) : Result := .next (runOpaque .chase s)

/-- GEN_WIPE (R113). -/
def execGenWipe (s : State) : Result := .next (runOpaque .wipe s)

/-- GEN_SPARKLE (R114). -/
def execGenSparkle (s : State) : Result := .next (runOpaque .sparkle s)

/-- GEN_SCANNER (R115). -/
def execGenScanner (s : State) : Result := .next (runOpaque .scanner s)

/-- GEN_SPARKLER (R116). -/
def execGenSparkler (s : State) : Result := .next (runOpaque .sparkler s)

/-- GEN_FADE_IN (R117). -/
def execGenFadeIn (s : State) : Result := .next (runOpaque .fadeIn s)

/-- GEN_FADE_OUT (R118). -/
def execGenFadeOut (s : State) : Result := .next (runOpaque .fadeOut s)

end Sys2Proof.Machine
end

