-- ==== Sys2Proof/Machine/Scheduler.lean ====
section
/-! DEFINITION. The Frame Scheduler (43_frame_scheduler.md): the TICK command. -/

namespace Sys2Proof.Machine

/-- `INTERVAL * SPEED`, the exact product (R121). -/
def tickThreshold (r : Regs) : Nat := r.interval.toNat * r.speed.toNat

/-- The tick at time `t` is gated: less time than the threshold has passed (R121). -/
def tickGated (t : Millis) (r : Regs) : Bool :=
  decide (elapsedSince r.lastFrame t < tickThreshold r)

/-- `BASE_INTERVAL[MODE]` (R122). -/
def baseIntervalOf (s : State) : BitVec 16 := s.cfg.baseInterval.getD s.regs.mode.toNat 0

/-- The generator that MODE selects, for one frame (R92, R122). A MODE value that selects nothing is
never held (R17, R78, log 13). -/
def runGenerator (s : State) : Result :=
  match decodeDispatch s.regs.mode with
  | .ok .genRainbow => execGenRainbow s
  | .ok .genBreathing => execGenBreathing s
  | .ok .genPlasma => execGenPlasma s
  | .ok .genChase => execGenChase s
  | .ok .genWipe => execGenWipe s
  | .ok .genSparkle => execGenSparkle s
  | .ok .genScanner => execGenScanner s
  | .ok .genWave => execGenWave s
  | .ok .genDither => execGenDither s
  | .ok .genSparkler => execGenSparkler s
  | .ok .genFadeIn => execGenFadeIn s
  | .ok .genFadeOut => execGenFadeOut s
  | .ok .nop | .ok .tick | .ok .stepMode | .ok .stepSpeed | .ok .stepBrightness
  | .ok .toggleEnable | .ok (.wheel _) | .ok (.scale _ _) | .ok (.readReg _) | .illegal _ =>
    .refused .modeSelectsNothing

/-- The state with which an accepted TICK runs its generator: INTERVAL is the dispatched mode's, and
for a Dither frame DNOW is the sampled time (R119, R122). -/
def dispatchState (t : Millis) (s : State) : State :=
  if s.regs.mode = 8 then
    { s with
      regs.interval := baseIntervalOf s
      regs.dnow := t }
  else { s with regs.interval := baseIntervalOf s }

/-- The frame completion after a generator that drew its whole frame; a Dither frame completes at its
DEND step (R119, R124). -/
def finishTick (t : Millis) (mode : BitVec 4) (r : Result) : Result :=
  match r with
  | .next s => if mode = 8 then .next s else .next (complete t s)
  | .fault f => .fault f
  | .refused f => .refused f

/-- An accepted TICK (R119, R122). -/
def acceptTick (t : Millis) (s : State) : Result :=
  finishTick t s.regs.mode (runGenerator (dispatchState t s))

/-- TICK (R119): the time is sampled once (R120); a gated tick changes nothing (R125). -/
def execTick (s : State) : Result :=
  if tickGated (now s) s.regs then .next s else acceptTick (now s) s

end Sys2Proof.Machine
end

