-- ==== Sys2Proof/Machine/Dispatch.lean ====
section
/-! DEFINITION. One arm per constructor of Instr: each a direct call of its meaning. -/

namespace Sys2Proof.Machine

/-- The meaning of every instruction. -/
def exec (i : Instr) (s : State) : Host.Outcome State Fault Refusal :=
  match i with
  | .nop => Sys2Proof.Machine.execNop s
  | .tick => Sys2Proof.Machine.execTick s
  | .stepMode => Sys2Proof.Machine.execStepMode s
  | .stepSpeed => Sys2Proof.Machine.execStepSpeed s
  | .stepBrightness => Sys2Proof.Machine.execStepBrightness s
  | .toggleEnable => Sys2Proof.Machine.execToggleEnable s
  | .wheel p => Sys2Proof.Machine.execWheel p s
  | .scale lvl c => Sys2Proof.Machine.execScale lvl c s
  | .readReg idx => Sys2Proof.Machine.execReadReg idx s
  | .genRainbow => Sys2Proof.Machine.execGenRainbow s
  | .genBreathing => Sys2Proof.Machine.execGenBreathing s
  | .genPlasma => Sys2Proof.Machine.execGenPlasma s
  | .genChase => Sys2Proof.Machine.execGenChase s
  | .genWipe => Sys2Proof.Machine.execGenWipe s
  | .genSparkle => Sys2Proof.Machine.execGenSparkle s
  | .genScanner => Sys2Proof.Machine.execGenScanner s
  | .genWave => Sys2Proof.Machine.execGenWave s
  | .genDither => Sys2Proof.Machine.execGenDither s
  | .genSparkler => Sys2Proof.Machine.execGenSparkler s
  | .genFadeIn => Sys2Proof.Machine.execGenFadeIn s
  | .genFadeOut => Sys2Proof.Machine.execGenFadeOut s

end Sys2Proof.Machine
end

