-- ==== Sys2Proof/Machine/Step.lean ====
section
/-! DEFINITION. One step of the machine (R63, R143): a move of environment and host, then at most one
action of the engine. -/

namespace Sys2Proof.Machine

/-- An accepted word is performed (R63): the instruction it decodes to, or `Illegal` (R140). -/
def performWord (w : Word) (s : State) : Result :=
  match decode w with
  | .ok i => exec i s
  | .illegal _ => raiseIllegal w s

/-- Accept the word on the port, if there is one; between commands the engine changes nothing
(R63, R150). -/
def acceptCommand (s : State) : Result :=
  match acceptWord s with
  | none => .next s
  | some (w, s') => performWord w s'

/-- The engine's action in a state whose inputs are sampled: reset while `rst` is 1 (R151), a Dither
step while BUSY, else a command (R143). -/
def engineStep (s : State) : Result :=
  if s.io.rst then .next (applyReset s)
  else if s.regs.busy then ditherStep s
  else acceptCommand s

/-- One step. A configuration outside its ranges is no engine (R41). -/
def step (s : State) : Host.Outcome State Fault Refusal :=
  if s.cfg.Valid then engineStep (envStep s) else .refused .badConfiguration

/-- `s` arranged so that the very next step runs the table row `w` (log 16): its word is on the port,
the port is ready, and no move of environment or host comes before. -/
def State.withFetchWord (s : State) (nbits w : Nat) : State :=
  { s with
    regs := fetchRegs nbits w s.regs
    io.port := [fetchedWord nbits w]
    io.rst := false
    io.rstHeld := false
    io.env := [] }

end Sys2Proof.Machine
end

