-- ==== Sys2Proof/Machine/Assembler.lean ====
section
/-! DEFINITION. The assembler (30_encoding.md R75) on a mnemonic and its operands, and the
pseudo-instructions (R76). -/

namespace Sys2Proof.Machine

/-- `v`, when it is at most `hi`, as a field of the word from bit `lsb` up (R75). -/
def operandField (hi lsb v : Nat) : Option Word :=
  if v ≤ hi then some (BitVec.ofNat 32 v <<< lsb) else none

/-- The word of one line (R75): a mnemonic and its operands; an operand outside its range, a wrong
number of operands or an unknown mnemonic is refused. -/
def assemble (mnemonic : String) (operands : List Nat) : Option Word :=
  match mnemonic, operands with
  | "NOP", [] => some 0x00000000
  | "TICK", [] => some 0x01000000
  | "STEP_MODE", [] => some 0x02000000
  | "STEP_SPEED", [] => some 0x03000000
  | "STEP_BRIGHTNESS", [] => some 0x04000000
  | "TOGGLE_ENABLE", [] => some 0x05000000
  | "WHEEL", [p] => (operandField 511 0 p).map (0x10000000 ||| ·)
  | "SCALE", [l, r, g, b] =>
    if l = 0 then none
    else do
      let lf ← operandField 5 21 l
      let rf ← operandField 127 14 r
      let gf ← operandField 127 7 g
      let bf ← operandField 127 0 b
      pure (0x11000000 ||| lf ||| rf ||| gf ||| bf)
  | "READ_REG", [i] => (operandField 10 0 i).map (0x20000000 ||| ·)
  | _, _ => none

/-- The names `READ` takes (R76), in the order of the register read map (R34). -/
inductive ReadName where
  | mode | speed | brightness | animStep | frameStep | lastFrame | interval | status
  | pixelCount | waveColor | ditherColor
deriving DecidableEq, Repr

/-- The index of a name in the register read map (R34, R76). -/
def ReadName.index : ReadName → BitVec 4
  | .mode => 0
  | .speed => 1
  | .brightness => 2
  | .animStep => 3
  | .frameStep => 4
  | .lastFrame => 5
  | .interval => 6
  | .status => 7
  | .pixelCount => 8
  | .waveColor => 9
  | .ditherColor => 10

/-- The pseudo-instructions (R76). -/
inductive Pseudo where
  | read (name : ReadName)
  | wheelM (p : Int)
  | scaleC (lvl : BitVec 3) (c : BitVec 21)
deriving DecidableEq, Repr

/-- The one command a pseudo-instruction expands to (R76). -/
def Pseudo.expand : Pseudo → Instr
  | .read name => .readReg name.index
  | .wheelM p => .wheel (BitVec.ofInt 9 (p % 384))
  | .scaleC lvl c => .scale lvl (unpackColor c)

end Sys2Proof.Machine
end

