-- ==== Sys2Proof/Safety.lean ====
section
/-! DEFINITION. What counts as a safe run, a run that continues past the faults it reports (R140),
and the invariant of the reachable states (R33). -/

namespace Sys2Proof.Machine

/-- The state a run goes on from after an outcome: past a fault it continues from the state the fault
carries (R140); past a refusal there is none. -/
def continueFrom : Result → Option State
  | .next s => some s
  | .fault (.illegal _ after) => some after
  | .refused _ => none

/-- The faults an outcome reports: the word of an illegal command (R140). -/
def faultWords : Result → List Word
  | .next _ => []
  | .fault (.illegal w _) => [w]
  | .refused _ => []

/-- `k` steps of a run that continues past faults: the state it reaches, unless a step is refused. -/
def runOn : Nat → State → Option State
  | 0, s => some s
  | k + 1, s =>
    match continueFrom (step s) with
    | some t => runOn k t
    | none => none

/-- The faults that the first `k` steps of such a run report, in order. -/
def reportedFaults : Nat → State → List Word
  | 0, _ => []
  | k + 1, s =>
    faultWords (step s) ++
      match continueFrom (step s) with
      | some t => reportedFaults k t
      | none => []

/-- A safe run: `k` steps with no fault and no refusal (a faulted run is one that holds an illegal
command, R140). -/
def SafeRun (k : Nat) (s : State) : Prop := ∃ t, Host.Core.run Sys2Proof.core k s = .next t

/-- The ranges every reachable state keeps (R33), with the form of the pixel arrays (R46) and a
configuration that exists (R41). -/
structure Inv (s : State) : Prop where
  cfg : s.cfg.Valid
  mode : s.regs.mode.toNat ≤ 11
  speed : s.regs.speed.toNat ≤ s.cfg.speedMax.toNat
  brightness : 1 ≤ s.regs.brightness.toNat ∧ s.regs.brightness.toNat ≤ 5
  anim : s.regs.animStep.toNat ≤ 384
  frame : s.regs.frameStep.toNat ≤ s.cfg.n
  dsub : s.regs.dsub.toNat ≤ ditherSubSteps s.cfg.n
  idle : s.regs.busy = false → s.regs.dsub = 0
  busyMode : s.regs.busy = true → s.regs.mode = 8
  surf : Memory.wf s.cfg.n s.px.surf
  strip : Memory.wf s.cfg.n s.px.strip

end Sys2Proof.Machine
end

