-- ==== Sys2Proof/Certificates/Slice0/Obligations.lean ====
section
/-! DEFINITION. The statements about the engine, each a `def Obligations.<Name> : Prop`. They are
written with the terms below, which restate the spec's own formulas on numbers and do not use the
model's functions for them. -/

namespace Sys2Proof.Claims

open Sys2Proof.Machine

/-- The 32-bit word of a packed color: r·2^14 + g·2^7 + b (R13, R77). -/
def packed (r g b : Nat) : Word := BitVec.ofNat 32 (r * 2 ^ 14 + g * 2 ^ 7 + b)

/-- The channels at wheel position `q` in 0..383 (R79). -/
def hue (q : Nat) : Nat × Nat × Nat :=
  if q < 128 then (127 - q, q, 0)
  else if q < 256 then (0, 255 - q, q - 128)
  else (q - 256, 0, 383 - q)

/-- The color at wheel position `q` (R79). -/
def hueColor (q : Nat) : Color :=
  ⟨BitVec.ofNat 7 (hue q).1, BitVec.ofNat 7 (hue q).2.1, BitVec.ofNat 7 (hue q).2.2⟩

/-- `S_L(v)` with SCALE2_FORM = MUL3_SHR2, as divisions rounded down (R85, R86); `lvl` in 1..5. -/
def dimmed (lvl v : Nat) : Nat :=
  if lvl = 1 then v
  else if lvl = 2 then 3 * v / 4
  else if lvl = 3 then v / 2
  else if lvl = 4 then v / 4
  else v / 8

/-- `SCALE(c, L)` (R85, R14). -/
def dim (lvl : Nat) (c : Color) : Color :=
  ⟨BitVec.ofNat 7 (dimmed lvl c.r.toNat), BitVec.ofNat 7 (dimmed lvl c.g.toNat),
    BitVec.ofNat 7 (dimmed lvl c.b.toNat)⟩

/-- `BLEND(v, s)` (R102), on integers with floor division. -/
def blended (v s : Int) : Int :=
  if 0 ≤ s then 127 - ((127 - v) * (16384 - s)).fdiv 16384 else (v * (16384 + s)).fdiv 16384

/-- BLEND on the three channels of a color (R102, R104). -/
def blendedColor (c : Color) (s : Int) : Color :=
  ⟨BitVec.ofInt 7 (blended c.r.toNat s), BitVec.ofInt 7 (blended c.g.toNat s),
    BitVec.ofInt 7 (blended c.b.toNat s)⟩

/-- The elapsed milliseconds from `base` to `t`, mod 2^32 (R121). -/
def elapsed (base t : Millis) : Nat := (t.toNat + 2 ^ 32 - base.toNat) % 2 ^ 32

/-- ANIM_STEP after a completed frame (R124). -/
def animAfter (a : Nat) : BitVec 9 := if 384 ≤ a then 0 else BitVec.ofNat 9 (a + 1)

/-- FRAME_STEP after a completed frame (R124). -/
def frameAfter (n f : Nat) : BitVec 8 := if n ≤ f then 0 else BitVec.ofNat 8 (f + 1)

/-- The three registers `COMPLETE(t)` writes, and no other (R124). -/
def completed (t : Millis) (s : State) : State :=
  { s with
    regs.animStep := animAfter s.regs.animStep.toNat
    regs.frameStep := frameAfter s.cfg.n s.regs.frameStep.toNat
    regs.lastFrame := t }

/-- BRIGHTNESS holds a level, 1..5 (R19, kept by every step). -/
abbrev Lit (s : State) : Prop := 1 ≤ s.regs.brightness.toNat ∧ s.regs.brightness.toNat ≤ 5

/-- SURF is an array of N pixels and N is at most 128 (R46, R41, kept by every step). -/
abbrev Surfaced (s : State) : Prop := s.px.surf.length = s.cfg.n ∧ s.cfg.n ≤ 128

/-- The pixel arrays after a sequence of events: a `SetPixel` below N stores in SURF, one outside
does nothing, a `Flush` copies SURF to STRIP (R49, R50, R51). -/
def replay (n : Nat) (es : List Event) (a : List Color × List Color) : List Color × List Color :=
  es.foldl (fun a e =>
    match e with
    | .setPixel i c => (if i.toNat < n then a.1.set i.toNat c else a.1, a.2)
    | .flush => (a.1, a.1)) a

/-- The registers of R36 hold their reset values; PRIV is unspecified there and is left out. -/
abbrev AtReset (r : Regs) : Prop :=
  r = { r with
    mode := 0
    speed := 0
    brightness := 1
    animStep := 0
    frameStep := 0
    lastFrame := 0
    interval := 0
    ill := false
    stripEn := true
    result := 0
    waveColor := ⟨0, 0, 0⟩
    ditherColor := ⟨0, 0, 0⟩
    busy := false
    dsub := 0
    dt := 0
    dnow := 0 }

/-- From `s` to `t` the engine drew one whole frame: pixels 0..N-1 in that order, each with the color
given, then one `Flush`; SURF holds those colors, STRIP is SURF; configuration, inputs and the draw
counter are as before (R90, R49, R51). It says nothing of the registers. -/
structure DrewFrame (s t : State) (color : Nat → Color) : Prop where
  events : t.px.events = s.px.events ++
    ((List.range s.cfg.n).map fun i => Event.setPixel (BitVec.ofNat 16 i) (color i)) ++ [Event.flush]
  pixels : ∀ i, i < s.cfg.n → readPixel t.px.surf i = some (color i)
  size : t.px.surf.length = s.cfg.n
  strip : t.px.strip = t.px.surf
  cfg : t.cfg = s.cfg
  io : t.io = s.io
  draws : t.draws = s.draws

/-- In the next step of `s` the engine, not reset and not BUSY, accepts word `w` (R63). -/
def Accepts (s : State) (w : Word) : Prop :=
  (envStep s).io.rst = false ∧ s.regs.busy = false ∧ ∃ rest, (envStep s).io.port = w :: rest

/-- The next step of `s` is the end step of a Dither frame (R108): not reset, BUSY, DSUB = M and the
wait is over. -/
def EndsDither (s : State) : Prop :=
  (envStep s).io.rst = false ∧ dendEnabled (envStep s) = true

/-- `b` is the dither bit count of `n`: the least with 2^b ≥ n (R106). -/
def IsDitherBits (n b : Nat) : Prop := n ≤ 2 ^ b ∧ ∀ c, n ≤ 2 ^ c → b ≤ c

/-- `r` is `i` with its `b` low bits reversed (R107). -/
def IsReversed (b i r : Nat) : Prop :=
  r < 2 ^ b ∧ ∀ j, j < b → r.testBit j = i.testBit (b - 1 - j)

/-- `z` is the real `x` rounded to the nearest integer, halves away from zero: `rha` (R10). -/
def IsRha (x : ℝ) (z : ℤ) : Prop :=
  |x - z| ≤ 1 / 2 ∧ (|x - z| = 1 / 2 → |x| < |(z : ℝ)|)

/-- The only word with this OP that is legal is the one with ARG zero, and it is `i` (R69, R71). -/
def OnlyZeroArg (op : Nat) (i : Instr) : Prop :=
  ∀ w : Word, w.toNat / 2 ^ 24 = op →
    (w.toNat % 2 ^ 24 = 0 → decode w = .ok i) ∧
    (w.toNat % 2 ^ 24 ≠ 0 → ∃ why, decode w = .illegal why)

/-- The values READ_REG returns, in the order of the register read map (R34). -/
def registerMap (s : State) : List Word :=
  [BitVec.ofNat 32 s.regs.mode.toNat, BitVec.ofNat 32 s.regs.speed.toNat,
    BitVec.ofNat 32 s.regs.brightness.toNat, BitVec.ofNat 32 s.regs.animStep.toNat,
    BitVec.ofNat 32 s.regs.frameStep.toNat, s.regs.lastFrame,
    BitVec.ofNat 32 s.regs.interval.toNat,
    BitVec.ofNat 32 (s.regs.ill.toNat + 2 * s.regs.stripEn.toNat),
    BitVec.ofNat 32 s.cfg.n,
    packed s.regs.waveColor.r.toNat s.regs.waveColor.g.toNat s.regs.waveColor.b.toNat,
    packed s.regs.ditherColor.r.toNat s.regs.ditherColor.g.toNat s.regs.ditherColor.b.toNat]

/-- The unscaled color of Rainbow pixel `i` (R93). -/
def rainbowAt (s : State) (i : Nat) : Color :=
  hueColor ((i * 384 / s.cfg.n + s.regs.animStep.toNat) % 384)

/-- `D` of R96: the floor of the Euclidean distance of `(px, y)` to an anchor. -/
def distance (px y : Nat) (a : Anchor) : Nat :=
  Nat.sqrt (((px : Int) - a.ax) ^ 2 + ((y : Int) - a.ay) ^ 2).toNat

/-- `S` of R97 with the anchors of R94, over the model's PSIN. -/
def plasmaTotal (px y : Nat) : Int :=
  psin (distance px y ⟨128, 128, 8⟩) 8 + psin (distance px y ⟨64, 64, 8⟩) 8 +
    psin (distance px y ⟨192, 64, 7⟩) 7 + psin (distance px y ⟨192, 100, 8⟩) 8

/-- The unscaled color of Plasma pixel `y` (R97, R98). -/
def plasmaAt (s : State) (y : Nat) : Color :=
  hueColor (((plasmaTotal (s.regs.frameStep.toNat + s.regs.animStep.toNat) y).fdiv 128) % 384).toNat

/-- The base color of a Wave frame (R103). -/
def waveBaseAt (s : State) : Color :=
  if s.regs.animStep.toNat = 0 then s.io.colorIn else s.regs.waveColor

/-- The opaque generators with their `PRIV` index (R110 to R118). -/
def opaqueGenerators : List (Instr × OpaqueMode) :=
  [(.genBreathing, .breathing), (.genChase, .chase), (.genWipe, .wipe), (.genSparkle, .sparkle),
    (.genScanner, .scanner), (.genSparkler, .sparkler), (.genFadeIn, .fadeIn),
    (.genFadeOut, .fadeOut)]

/-- The events of sub-steps `0..m-1` of a Dither frame of color `c` (R108). -/
def ditherEvents (b : Nat) (c : Color) (m : Nat) : List Event :=
  (List.range m).flatMap fun i => [.setPixel (BitVec.ofNat 16 (reverseBits b i)) c, .flush]

/-- A Dither frame of bit count `b` and scaled color `c` in progress in `s`: every pixel that a sub-step
done has named holds `c` in SURF (R108, R109). -/
structure InDither (b : Nat) (c : Color) (s : State) : Prop where
  valid : s.cfg.Valid
  busy : s.regs.busy = true
  lit : Lit s
  surfaced : Surfaced s
  bits : IsDitherBits s.cfg.n b
  bound : s.regs.dsub.toNat ≤ 2 ^ b
  color : dim s.regs.brightness.toNat s.regs.ditherColor = c
  pixels : ∀ i, i < s.regs.dsub.toNat → reverseBits b i < s.cfg.n →
    readPixel s.px.surf (reverseBits b i) = some c

/-- That frame has ended in `s`: the port is free, and all N pixels hold `c` in SURF (R109). -/
structure EndedDither (c : Color) (s : State) : Prop where
  busy : s.regs.busy = false
  dsub : s.regs.dsub = 0
  pixels : ∀ i, i < s.cfg.n → readPixel s.px.surf i = some c

/-- The number of sub-steps done of a Dither frame of bit count `b`, all of them once it has ended. -/
def subStepsDone (b : Nat) (s : State) : Nat := if s.regs.busy then s.regs.dsub.toNat else 2 ^ b

end Sys2Proof.Claims

open Sys2Proof Sys2Proof.Machine Sys2Proof.Claims

/-! ## Encoding -/

/-- Words written out from the tables of R65 and R69, one per format and some illegal ones
(95_test_vectors.md 2.1). -/
def Obligations.ListedWordsDecodeAsTheSpecSays : Prop :=
  decode 0x00000000 = .ok .nop ∧ decode 0x01000000 = .ok .tick ∧
  decode 0x02000000 = .ok .stepMode ∧ decode 0x03000000 = .ok .stepSpeed ∧
  decode 0x04000000 = .ok .stepBrightness ∧ decode 0x05000000 = .ok .toggleEnable ∧
  decode 0x100000C0 = .ok (.wheel 192) ∧ decode 0x100001FF = .ok (.wheel 511) ∧
  decode 0x117FE001 = .ok (.scale 3 ⟨127, 64, 1⟩) ∧ decode 0x2000000A = .ok (.readReg 10) ∧
  decode 0x01800000 = .illegal .reservedBits ∧ decode 0x06000000 = .illegal .reservedOpcode ∧
  decode 0x11C00000 = .illegal .illegalLevel ∧ decode 0x2000000B = .illegal .reservedIndex

/-- Decoding the encoding of a well-formed instruction gives it back, operands and all. -/
def Obligations.EncodeThenDecodeIsIdentity : Prop :=
  ∀ i : Instr, i.wf = true → decodeEncoding (encode i) = .ok i

/-- A word that decodes is the encoding of what it decodes to, which is a well-formed command: each
word has one meaning and each command one word (R69: no two rows select the same word; R78: no
command word is a generator). -/
def Obligations.DecodedWordIsTheEncodingOfItsCommand : Prop :=
  ∀ (w : Word) (i : Instr), decode w = .ok i →
    encode i = .command w ∧ i.wf = true ∧ i.isGenerator = false

/-- R70, R71, R72: the illegal words are exactly those with a reserved OP, a 1 in a bit that must be
0, a level 0, 6 or 7, or an index 11..15. -/
def Obligations.IllegalWordsAreThoseTheRulesName : Prop :=
  ∀ w : Word,
    (∃ why, decode w = .illegal why) ↔
      (w.toNat / 2 ^ 24 ∈ List.range' 0x06 10 ∨ w.toNat / 2 ^ 24 ∈ List.range' 0x12 14 ∨
        0x21 ≤ w.toNat / 2 ^ 24) ∨
      (w.toNat / 2 ^ 24 ≤ 0x05 ∧ w.toNat % 2 ^ 24 ≠ 0) ∨
      (w.toNat / 2 ^ 24 = 0x10 ∧ w.toNat % 2 ^ 24 / 2 ^ 9 ≠ 0) ∨
      (w.toNat / 2 ^ 24 = 0x20 ∧ w.toNat % 2 ^ 24 / 2 ^ 4 ≠ 0) ∨
      (w.toNat / 2 ^ 24 = 0x11 ∧ w.toNat / 2 ^ 21 % 8 ∈ [0, 6, 7]) ∨
      (w.toNat / 2 ^ 24 = 0x20 ∧ 11 ≤ w.toNat % 16)

/-- R66, R67, R68: WHEEL's position, SCALE's level and channels and READ_REG's index are these fields
of the word, unsigned; levels 1..5 and indices 0..10 are legal and the others illegal. -/
def Obligations.OperandsAreTheFieldsOfTheWord : Prop :=
  ∀ w : Word,
    (w.toNat / 2 ^ 24 = 0x10 → w.toNat % 2 ^ 24 < 2 ^ 9 →
      decode w = .ok (.wheel (BitVec.ofNat 9 (w.toNat % 512)))) ∧
    (w.toNat / 2 ^ 24 = 0x11 →
      (1 ≤ w.toNat / 2 ^ 21 % 8 ∧ w.toNat / 2 ^ 21 % 8 ≤ 5 →
        decode w = .ok (.scale (BitVec.ofNat 3 (w.toNat / 2 ^ 21 % 8))
          ⟨BitVec.ofNat 7 (w.toNat / 2 ^ 14 % 128), BitVec.ofNat 7 (w.toNat / 2 ^ 7 % 128),
            BitVec.ofNat 7 (w.toNat % 128)⟩)) ∧
      (w.toNat / 2 ^ 21 % 8 = 0 ∨ 6 ≤ w.toNat / 2 ^ 21 % 8 → ∃ why, decode w = .illegal why)) ∧
    (w.toNat / 2 ^ 24 = 0x20 → w.toNat % 2 ^ 24 < 2 ^ 4 →
      (w.toNat % 16 ≤ 10 → decode w = .ok (.readReg (BitVec.ofNat 4 (w.toNat % 16)))) ∧
      (11 ≤ w.toNat % 16 → ∃ why, decode w = .illegal why))

/-- R92, R78: the generator each MODE value selects, whatever the state; MODE 12..15 select nothing. -/
def Obligations.DispatchCodesSelectTheirGenerators : Prop :=
  (∀ m : BitVec 4, m.toNat ≤ 11 →
    (decodeDispatch m).instr? =
      [Instr.genRainbow, .genBreathing, .genPlasma, .genChase, .genWipe, .genSparkle, .genScanner,
        .genWave, .genDither, .genSparkler, .genFadeIn, .genFadeOut][m.toNat]?) ∧
  (∀ m : BitVec 4, 12 ≤ m.toNat → (decodeDispatch m).instr? = none)

/-- R75: what the assembler gives for each mnemonic decodes to its command with its operands, and an
operand outside its range is refused; R76: each pseudo-instruction expands to its command. -/
def Obligations.AssembledLinesDecodeToTheirCommands : Prop :=
  (∀ l ∈ [("NOP", Instr.nop), ("TICK", .tick), ("STEP_MODE", .stepMode),
      ("STEP_SPEED", .stepSpeed), ("STEP_BRIGHTNESS", .stepBrightness),
      ("TOGGLE_ENABLE", .toggleEnable)],
    ∃ w, assemble l.1 [] = some w ∧ decode w = .ok l.2) ∧
  (∀ p : Nat, (p ≤ 511 → ∃ w, assemble "WHEEL" [p] = some w ∧
      decode w = .ok (.wheel (BitVec.ofNat 9 p))) ∧
    (511 < p → assemble "WHEEL" [p] = none)) ∧
  (∀ l r g b : Nat, (1 ≤ l ∧ l ≤ 5 ∧ r ≤ 127 ∧ g ≤ 127 ∧ b ≤ 127 →
      ∃ w, assemble "SCALE" [l, r, g, b] = some w ∧ decode w =
        .ok (.scale (BitVec.ofNat 3 l) ⟨BitVec.ofNat 7 r, BitVec.ofNat 7 g, BitVec.ofNat 7 b⟩)) ∧
    (l = 0 ∨ 5 < l ∨ 127 < r ∨ 127 < g ∨ 127 < b → assemble "SCALE" [l, r, g, b] = none)) ∧
  (∀ i : Nat, (i ≤ 10 → ∃ w, assemble "READ_REG" [i] = some w ∧
      decode w = .ok (.readReg (BitVec.ofNat 4 i))) ∧
    (10 < i → assemble "READ_REG" [i] = none)) ∧
  ([ReadName.mode, .speed, .brightness, .animStep, .frameStep, .lastFrame, .interval, .status,
      .pixelCount, .waveColor, .ditherColor].map (fun n => (Pseudo.read n).expand) =
    (List.range 11).map fun i => .readReg (BitVec.ofNat 4 i)) ∧
  (∀ p : Int, ∃ q : BitVec 9, (Pseudo.wheelM p).expand = .wheel q ∧ (q.toNat : Int) = p % 384) ∧
  (∀ (lvl : BitVec 3) (c : BitVec 21), ∃ d : Color, (Pseudo.scaleC lvl c).expand = .scale lvl d ∧
    d.r.toNat = c.toNat / 2 ^ 14 ∧ d.g.toNat = c.toNat / 2 ^ 7 % 128 ∧ d.b.toNat = c.toNat % 128)

/-! ## The step -/

/-- R63: when the engine is not BUSY and not reset, and the word on the port decodes to `i`, the step
is `exec i` in the state with the inputs sampled and the word taken off the port. -/
def Obligations.StepPerformsTheAcceptedCommand : Prop :=
  ∀ (s : State) (w : Word) (rest : List Word) (i : Instr),
    s.cfg.Valid → (envStep s).io.rst = false → s.regs.busy = false →
    (envStep s).io.port = w :: rest → decode w = .ok i →
    step s = exec i { envStep s with io.port := rest }

/-- The table row placed by `withFetchWord` is what the very next step runs: a row of 32 bits by
itself, a row of any other number of bits, a dispatch code, as the generator of a TICK that is not
gated (the model's arrangement, log 16). -/
def Obligations.FetchedTableRowRunsNext : Prop :=
  (∀ (s : State) (w : Nat) (i : Instr), s.cfg.Valid → decodeTableWord 32 w = some i →
    step (s.withFetchWord 32 w) =
      exec i { s with
        regs.busy := false
        regs.dsub := 0
        io.port := []
        io.rst := false
        io.rstHeld := false
        io.env := [] }) ∧
  (∀ (s : State) (nbits m : Nat) (g : Instr), s.cfg.Valid → nbits ≠ 32 →
    decodeTableWord nbits m = some g →
    ∃ u, decodeDispatch u.regs.mode = .ok g ∧
      step (s.withFetchWord nbits m) = acceptTick u.io.nowMs u ∧
      u.cfg = s.cfg ∧ u.px = s.px ∧ u.io.nowMs = s.io.nowMs ∧
      u.io.colorIn = s.io.colorIn ∧ u.draws = s.draws ∧
      u.regs = { s.regs with
        busy := false
        dsub := 0
        mode := BitVec.ofNat 4 m
        interval := 0 })

/-- R140: an illegal word on the port is consumed and reported as the fault `Illegal` with the word;
the state a continued run goes on from has ILL set and nothing else changed. No step clears ILL but
one with `rst` at 1. -/
def Obligations.IllegalWordFaultsAndOnlySetsStickyIll : Prop :=
  (∀ (s : State) (w : Word) (rest : List Word) (why : IllegalReason),
    s.cfg.Valid → (envStep s).io.rst = false → s.regs.busy = false →
    (envStep s).io.port = w :: rest → decode w = .illegal why →
    step s = .fault (.illegal w { envStep s with
      regs.ill := true
      io.port := rest })) ∧
  (∀ s t : State, (envStep s).io.rst = false → step s = .next t → t.regs.ill = s.regs.ill) ∧
  (∀ s t : State, (envStep s).io.rst = true → step s = .next t → t.regs.ill = false)

/-- R159, R164: while BUSY and not reset a step takes no word from the port and changes none of the
settings, STATUS, RESULT, WAVE_COLOR, DITHER_COLOR, DNOW, INTERVAL or PRIV. -/
def Obligations.BusyEngineAcceptsNoCommand : Prop :=
  ∀ s t : State, s.regs.busy = true → (envStep s).io.rst = false → step s = .next t →
    t.io = (envStep s).io ∧ t.draws = s.draws ∧
    t.regs = { s.regs with
      animStep := t.regs.animStep
      frameStep := t.regs.frameStep
      lastFrame := t.regs.lastFrame
      busy := t.regs.busy
      dsub := t.regs.dsub
      dt := t.regs.dt }

/-- R150: between commands the engine is idle: with nothing on the port a step changes only what the
environment changes. -/
def Obligations.IdleEngineChangesNothing : Prop :=
  ∀ s : State, s.cfg.Valid → (envStep s).io.rst = false → s.regs.busy = false →
    (envStep s).io.port = [] →
    step s = .next (envStep s) ∧ (envStep s).regs = s.regs ∧ (envStep s).px = s.px ∧
      (envStep s).cfg = s.cfg ∧ (envStep s).draws = s.draws

/-- R151, R152: the step in which `rst` is 1 puts every register but PRIV at its reset value and emits
no event; SURF is N pixels of unspecified colors. STRIP too is unspecified then (R152), but R151 says
that the pixels a Dither frame has flushed stay on the strip. Of that the model's reading, log 7, is
that once the frame has flushed the whole image stays, `Flush` sending all N pixels, and that a later
step of the same reset keeps STRIP; and its reading of R63 and R151, log 18, is that the port keeps its
words. -/
def Obligations.ResetPinResetsEveryRegister : Prop :=
  ∀ s : State, s.cfg.Valid → (envStep s).io.rst = true →
    ∃ t, step s = .next t ∧ AtReset t.regs ∧ t.px.events = s.px.events ∧
      (s.regs.busy = true ∧ s.regs.dsub ≠ 0 ∨ (envStep s).io.rstHeld = true →
        t.px.strip = s.px.strip) ∧
      t.px.surf.length = s.cfg.n ∧ (s.px.strip.length = s.cfg.n → t.px.strip.length = s.cfg.n) ∧
      t.cfg = s.cfg ∧ t.io = { (envStep s).io with rstHeld := true }

/-- R36: the values every register takes on reset, at power-on with any configuration and in a step
with `rst` at 1; PRIV and the Pixel Surface are unspecified there. -/
def Obligations.ResetStateHoldsTheSpecValues : Prop :=
  (∀ c : Config, AtReset (State.resetWith c).regs ∧ (State.resetWith c).px.events = []) ∧
  State.reset = State.resetWith State.reset.cfg ∧
  (∀ s t : State, (envStep s).io.rst = true → step s = .next t → AtReset t.regs)

/-- The invariant of R33 holds after reset in every configuration that exists, and in State.reset. -/
def Obligations.ResetStateSatisfiesTheInvariant : Prop :=
  (∀ c : Config, c.Valid → Inv (State.resetWith c)) ∧ Inv State.reset

/-- R33: every step keeps the invariant, also a step that reports an illegal command. -/
def Obligations.EveryStepKeepsTheInvariant : Prop :=
  ∀ s : State, Inv s →
    (∀ t, step s = .next t → Inv t) ∧ (∀ w t, step s = .fault (.illegal w t) → Inv t)

/-- R138, R139: in a state of the invariant no step is refused: it answers a next state, or reports
an illegal command and says where a continued run goes on. -/
def Obligations.InvariantStatesAreNeverRefused : Prop :=
  ∀ s : State, Inv s → (∃ t, step s = .next t) ∨ (∃ w t, step s = .fault (.illegal w t))

/-- R155 (1): no step changes the configuration. -/
def Obligations.NoStepChangesTheConfiguration : Prop :=
  ∀ s t : State,
    (step s = .next t → t.cfg = s.cfg) ∧
    (∀ w, step s = .fault (.illegal w t) → t.cfg = s.cfg)

/-- R41, R139: an engine configured with N outside 1..128 is refused. That SPEED_MAX = 0 and a
base-interval table that has not twelve entries, outside the ranges of R7, are refused too is the
model's reading (log 14). -/
def Obligations.ConfigurationOutsideItsRangesIsRefused : Prop :=
  ∀ s : State, s.cfg.n = 0 ∨ 128 < s.cfg.n ∨ s.cfg.speedMax = 0 ∨ s.cfg.baseInterval.length ≠ 12 →
    step s = .refused .badConfiguration

/-! ## What only some events change -/

/-- R17, R18, R19, R23: without reset, MODE changes only in the step that accepts STEP_MODE, SPEED
only by STEP_SPEED, BRIGHTNESS only by STEP_BRIGHTNESS, STRIP_EN only by TOGGLE_ENABLE. -/
def Obligations.SettingsChangeOnlyByTheirCommands : Prop :=
  ∀ s t : State, (envStep s).io.rst = false → step s = .next t →
    (t.regs.mode ≠ s.regs.mode → Accepts s 0x02000000) ∧
    (t.regs.speed ≠ s.regs.speed → Accepts s 0x03000000) ∧
    (t.regs.brightness ≠ s.regs.brightness → Accepts s 0x04000000) ∧
    (t.regs.stripEn ≠ s.regs.stripEn → Accepts s 0x05000000)

/-- R24: RESULT changes only in a step that accepts a WHEEL, SCALE or READ_REG word, not by an illegal
command; it is the `result` output, and 0 after reset. -/
def Obligations.ResultChangesOnlyByItsThreeCommands : Prop :=
  (∀ s t : State, (envStep s).io.rst = false → step s = .next t → t.regs.result ≠ s.regs.result →
    ∃ w : Word, Accepts s w ∧ w.toNat / 2 ^ 24 ∈ [0x10, 0x11, 0x20]) ∧
  (∀ (s t : State) (w : Word), step s = .fault (.illegal w t) → t.regs.result = s.regs.result) ∧
  (∀ s : State, resultOut s = s.regs.result) ∧
  (∀ c : Config, (State.resetWith c).regs.result = 0)

/-- R48, R49, R50, R51, R54: without reset, the pixel arrays after a step are the arrays before it
with the step's events applied in order, and an illegal command emits none. -/
def Obligations.PixelArraysFollowTheEvents : Prop :=
  (∀ s t : State, (envStep s).io.rst = false → step s = .next t →
    ∃ es, t.px.events = s.px.events ++ es ∧
      (t.px.surf, t.px.strip) = replay s.cfg.n es (s.px.surf, s.px.strip)) ∧
  (∀ (s t : State) (w : Word), step s = .fault (.illegal w t) → t.px = s.px)

/-- R55, R90: a step that emits events emits `SetPixel`s and then one `Flush`, and leaves STRIP equal
to SURF, so no half-drawn frame is published. -/
def Obligations.EventsOfAStepEndInTheirOnlyFlush : Prop :=
  ∀ s t : State, step s = .next t →
    t.px.events = s.px.events ∨
    ∃ ps : List (PixelIndex × Color),
      t.px.events = s.px.events ++ ps.map (fun x => Event.setPixel x.1 x.2) ++ [Event.flush] ∧
      t.px.strip = t.px.surf

/-- R21, R22, R25, R26, R123: without reset, LAST_FRAME changes only by TICK and the end of a Dither
frame, ANIM_STEP and FRAME_STEP also by STEP_MODE, INTERVAL and DNOW only by TICK. -/
def Obligations.FrameRegistersChangeOnlyByFrames : Prop :=
  ∀ s t : State, (envStep s).io.rst = false → step s = .next t →
    (t.regs.lastFrame ≠ s.regs.lastFrame → Accepts s 0x01000000 ∨ EndsDither s) ∧
    (t.regs.animStep ≠ s.regs.animStep ∨ t.regs.frameStep ≠ s.regs.frameStep →
      Accepts s 0x01000000 ∨ Accepts s 0x02000000 ∨ EndsDither s) ∧
    (t.regs.interval ≠ s.regs.interval ∨ t.regs.dnow ≠ s.regs.dnow → Accepts s 0x01000000)

/-- R27, R28, R30: without reset, WAVE_COLOR changes only by a TICK in MODE 7, DITHER_COLOR only by a
TICK in MODE 8, and `PRIV[m]` only by a TICK in the MODE of generator m. -/
def Obligations.ModeLocalStateChangesOnlyByItsGenerator : Prop :=
  ∀ s t : State, (envStep s).io.rst = false → step s = .next t →
    (t.regs.waveColor ≠ s.regs.waveColor → Accepts s 0x01000000 ∧ s.regs.mode = 7) ∧
    (t.regs.ditherColor ≠ s.regs.ditherColor → Accepts s 0x01000000 ∧ s.regs.mode = 8) ∧
    (∀ g m, (g, m) ∈ opaqueGenerators → readPriv t.regs.priv m ≠ readPriv s.regs.priv m →
      Accepts s 0x01000000 ∧ decodeDispatch s.regs.mode = .ok g)

/-! ## Control commands -/

/-- R129: NOP changes nothing; the all-zero word is NOP, and OP 0 with a nonzero ARG is illegal. -/
def Obligations.NopChangesNothing : Prop :=
  (∀ s : State, exec .nop s = .next s) ∧ OnlyZeroArg 0x00 .nop

/-- R131: MODE advances and wraps from 11 to 0, both counters are cleared, nothing else changes;
twelve of them give MODE back. -/
def Obligations.StepModeAdvancesModeAndClearsCounters : Prop :=
  (∀ s : State, exec .stepMode s = .next { s with
    regs.mode := if 11 ≤ s.regs.mode.toNat then 0 else BitVec.ofNat 4 (s.regs.mode.toNat + 1)
    regs.animStep := 0
    regs.frameStep := 0 }) ∧
  (∀ m : BitVec 4, m.toNat ≤ 11 → nextMode^[12] m = m) ∧
  OnlyZeroArg 0x02 .stepMode

/-- R132: SPEED advances and wraps from SPEED_MAX to 0, nothing else changes. -/
def Obligations.StepSpeedAdvancesSpeed : Prop :=
  (∀ s : State, exec .stepSpeed s = .next { s with
    regs.speed := if s.cfg.speedMax.toNat ≤ s.regs.speed.toNat then 0
      else BitVec.ofNat 8 (s.regs.speed.toNat + 1) }) ∧
  OnlyZeroArg 0x03 .stepSpeed

/-- R133: BRIGHTNESS advances and wraps from 5 to 1, nothing else changes. -/
def Obligations.StepBrightnessAdvancesBrightness : Prop :=
  (∀ s : State, exec .stepBrightness s = .next { s with
    regs.brightness := if 5 ≤ s.regs.brightness.toNat then 1
      else BitVec.ofNat 3 (s.regs.brightness.toNat + 1) }) ∧
  OnlyZeroArg 0x04 .stepBrightness

/-- R61, R134: STRIP_EN flips, and with it the `strip_en` output; nothing else changes; two toggles
restore the state; a TICK does the same whatever STRIP_EN is, so the engine keeps drawing and flushing.
That two TICKs in an opaque MODE which differ only in STRIP_EN draw the same frame is the model's choice
(log 9): there the rules say only that STRIP_EN is nothing the frame depends on. -/
def Obligations.ToggleEnableFlipsStripEn : Prop :=
  (∀ s : State, exec .toggleEnable s = .next { s with regs.stripEn := !s.regs.stripEn }) ∧
  (∀ s t u : State, exec .toggleEnable s = .next t → exec .toggleEnable t = .next u →
    stripEnOut t = !stripEnOut s ∧ u = s) ∧
  (∀ (s t : State) (b : Bool), exec .tick s = .next t →
    exec .tick { s with regs.stripEn := b } = .next { t with regs.stripEn := b }) ∧
  OnlyZeroArg 0x05 .toggleEnable

/-- R34, R135: READ_REG of an assigned index writes RESULT with the mapped value, zero-extended, and
changes nothing else. -/
def Obligations.ReadRegReturnsTheMappedRegister : Prop :=
  ∀ (s : State) (idx : BitVec 4) (v : Word), (registerMap s)[idx.toNat]? = some v →
    exec (.readReg idx) s = .next { s with regs.result := v }

/-- R135, R72: READ_REG of an index 11..15 is the illegal command: the fault with its word, ILL set,
RESULT and all else unchanged. -/
def Obligations.ReadRegOfReservedIndexIsIllegal : Prop :=
  ∀ (s : State) (idx : BitVec 4), 11 ≤ idx.toNat →
    exec (.readReg idx) s =
      .fault (.illegal (BitVec.ofNat 32 (0x20 * 2 ^ 24 + idx.toNat)) { s with regs.ill := true })

/-! ## Color Wheel and Brightness Scaler -/

/-- R79, R80, R81: WHEEL writes RESULT with the packed color of its position, reduced mod 384, and
changes nothing else. -/
def Obligations.WheelCommandGivesTheBandColor : Prop :=
  ∀ (p : BitVec 9) (s : State),
    exec (.wheel p) s = .next { s with
      regs.result :=
        packed (hue (p.toNat % 384)).1 (hue (p.toNat % 384)).2.1 (hue (p.toNat % 384)).2.2 }

/-- R82: the channels sum to 127, at least one is 0, two only at the six band ends, and 128 positions
further the channels are rotated. -/
def Obligations.WheelChannelsSumTo127AndRotate : Prop :=
  (∀ p, p < 384 →
    (wheel p).r.toNat + (wheel p).g.toNat + (wheel p).b.toNat = 127 ∧
    ([(wheel p).r, (wheel p).g, (wheel p).b].count 0 =
      if p ∈ [0, 127, 128, 255, 256, 383] then 2 else 1)) ∧
  (∀ p, p < 256 → wheel (p + 128) = ⟨(wheel p).b, (wheel p).r, (wheel p).g⟩)

/-- R83: two positions give one color exactly at the three band boundaries, so the 384 positions give
381 colors. -/
def Obligations.WheelRepeatsOnlyThePrimaries : Prop :=
  (∀ p q, p < q → q < 384 →
    (wheel p = wheel q ↔ (p = 127 ∧ q = 128) ∨ (p = 255 ∧ q = 256) ∨ (p = 0 ∧ q = 383))) ∧
  ((List.range 384).map wheel).dedup.length = 381

/-- R85, R87: SCALE at a level 1..5 writes RESULT with the packed scaled color and changes nothing
else; BRIGHTNESS is not read. -/
def Obligations.ScaleCommandScalesEachChannel : Prop :=
  ∀ (lvl : BitVec 3) (c : Color) (s : State), 1 ≤ lvl.toNat → lvl.toNat ≤ 5 →
    exec (.scale lvl c) s = .next { s with
      regs.result :=
        packed (dimmed lvl.toNat c.r.toNat) (dimmed lvl.toNat c.g.toNat)
          (dimmed lvl.toNat c.b.toNat) }

/-- R87, R72: SCALE at a level 0, 6 or 7 is the illegal command: the fault with its word, ILL set,
RESULT and all else unchanged. -/
def Obligations.ScaleAtNoLevelIsIllegal : Prop :=
  ∀ (lvl : BitVec 3) (c : Color) (s : State), lvl.toNat = 0 ∨ 6 ≤ lvl.toNat →
    exec (.scale lvl c) s =
      .fault (.illegal
        (BitVec.ofNat 32 (0x11 * 2 ^ 24 + lvl.toNat * 2 ^ 21 + c.r.toNat * 2 ^ 14 +
          c.g.toNat * 2 ^ 7 + c.b.toNat))
        { s with regs.ill := true })

/-- R86, R88, for every SCALE2_FORM: level 1 is the identity, a higher level never gives more, no level
gives more than the value, 0 stays 0, each level is non-decreasing in the value. -/
def Obligations.ScalerIsMonotoneInLevelAndValue : Prop :=
  ∀ (form : Scale2Form) (l k : Level) (v w : Nat), v ≤ 127 → w ≤ 127 →
    scaleValue form .l1 v = v ∧
    (levelNumber l ≤ levelNumber k → scaleValue form k v ≤ scaleValue form l v) ∧
    scaleValue form l v ≤ v ∧ scaleValue form l 0 = 0 ∧
    (v ≤ w → scaleValue form l v ≤ scaleValue form l w)

/-! ## Frame scheduler -/

/-- R121, R125: a TICK before INTERVAL·SPEED milliseconds have passed changes nothing at all. -/
def Obligations.GatedTickChangesNothing : Prop :=
  ∀ s : State,
    elapsed s.regs.lastFrame s.io.nowMs < s.regs.interval.toNat * s.regs.speed.toNat →
    exec .tick s = .next s

/-- R119, R122, R123, R124: a TICK that is not gated, in a MODE other than 8, writes INTERVAL with the
base interval of MODE, runs the generator of MODE once, and completes the frame with the time it
sampled; it always completes. -/
def Obligations.AcceptedTickRunsOneFrameAndCompletes : Prop :=
  ∀ (s : State) (g : Instr) (base : BitVec 16),
    s.regs.interval.toNat * s.regs.speed.toNat ≤ elapsed s.regs.lastFrame s.io.nowMs →
    decodeDispatch s.regs.mode = .ok g → s.regs.mode ≠ 8 →
    s.cfg.baseInterval[s.regs.mode.toNat]? = some base → Lit s →
    ∃ u, exec g { s with regs.interval := base } = .next u ∧
      exec .tick s = .next (completed s.io.nowMs u)

/-- R119, R108: a TICK that is not gated in MODE 8 starts a Dither frame: INTERVAL, DNOW, the drawn
DITHER_COLOR, BUSY and DSUB are written and nothing else; no event, no completion. -/
def Obligations.AcceptedDitherTickStartsTheFrame : Prop :=
  ∀ (s : State) (base : BitVec 16),
    s.regs.interval.toNat * s.regs.speed.toNat ≤ elapsed s.regs.lastFrame s.io.nowMs →
    s.regs.mode = 8 → s.cfg.baseInterval[8]? = some base →
    exec .tick s = .next { s with
      regs.interval := base
      regs.dnow := s.io.nowMs
      regs.ditherColor := s.io.colorIn
      regs.busy := true
      regs.dsub := 0 }

/-- R154: whatever `now_ms` holds, the first TICK after reset, by power-on or by `rst`, is accepted and
draws the Rainbow frame of ANIM_STEP 0 at full brightness; INTERVAL becomes BASE_INTERVAL[0], both
counters 1, LAST_FRAME the sampled time, and no other register changes. -/
def Obligations.FirstTickAfterResetDrawsTheRainbow : Prop :=
  ∀ (s : State) (base : BitVec 16), s.cfg.Valid → AtReset s.regs → s.px.surf.length = s.cfg.n →
    s.cfg.baseInterval[0]? = some base →
    ∃ u, exec .tick s = .next u ∧
      DrewFrame s u (fun i => hueColor (i * 384 / s.cfg.n)) ∧
      u.regs = { s.regs with
        interval := base
        animStep := 1
        frameStep := 1
        lastFrame := s.io.nowMs }

/-- R158: the TICK after STEP_MODE is gated by the INTERVAL of the mode dispatched before, and it is
that TICK that writes the new mode's base interval. -/
def Obligations.IntervalLagsOneFrameAfterStepMode : Prop :=
  ∀ (s u : State) (base : BitVec 16), exec .stepMode s = .next u →
    s.cfg.baseInterval[u.regs.mode.toNat]? = some base → u.regs.mode.toNat ≤ 11 → Lit s →
    u.regs.interval = s.regs.interval ∧
    (elapsed s.regs.lastFrame s.io.nowMs < s.regs.interval.toNat * s.regs.speed.toNat →
      exec .tick u = .next u) ∧
    (s.regs.interval.toNat * s.regs.speed.toNat ≤ elapsed s.regs.lastFrame s.io.nowMs →
      ∃ v, exec .tick u = .next v ∧ v.regs.interval = base)

/-- R25, R26, R124: from 0 the completion takes ANIM_STEP through 0..384 and back to 0 in 385
advances, FRAME_STEP through 0..N in N + 1. -/
def Obligations.CountersHavePeriods385AndNPlusOne : Prop :=
  (∀ k, k ≤ 384 → (advanceAnim^[k] 0).toNat = k) ∧ advanceAnim^[385] 0 = 0 ∧
  (∀ n, n ≤ 128 → (∀ k, k ≤ n → ((advanceFrame n)^[k] 0).toNat = k) ∧
    (advanceFrame n)^[n + 1] 0 = 0)

/-! ## Generators -/

/-- R93, R91: GEN_RAINBOW draws, for each pixel i, the wheel color at (i·384//N + ANIM_STEP) mod 384
scaled by BRIGHTNESS, flushes once, and writes no register. -/
def Obligations.RainbowDrawsTheTravelingHue : Prop :=
  ∀ s : State, Lit s → Surfaced s →
    ∃ t, exec .genRainbow s = .next t ∧ t.regs = s.regs ∧
      DrewFrame s t fun i => dim s.regs.brightness.toNat (rainbowAt s i)

/-- R162: the Rainbow frame at ANIM_STEP 384 is the frame at ANIM_STEP 0. -/
def Obligations.RainbowAt384RepeatsTheFrameAtZero : Prop :=
  ∀ s t u : State,
    exec .genRainbow { s with regs.animStep := 384 } = .next t →
    exec .genRainbow { s with regs.animStep := 0 } = .next u → t.px = u.px

/-- R94, R96, R97, R98: GEN_PLASMA draws, for each pixel y, the wheel color at (S // 128) mod 384,
scaled by BRIGHTNESS, flushes once, and writes no register. -/
def Obligations.PlasmaDrawsTheInterferencePattern : Prop :=
  ∀ s : State, Lit s → Surfaced s →
    ∃ t, exec .genPlasma s = .next t ∧ t.regs = s.regs ∧
      DrewFrame s t fun y => dim s.regs.brightness.toNat (plasmaAt s y)

/-- R95, R97, R99: PSIN stays in [-16384, 16384] and is 0 at distance 0, for any divisor; distances
stay at most 571 for any anchor of R94; the sum of this hardware's terms is within 4·16384 and its
wheel position in 0..383. -/
def Obligations.PlasmaIntermediatesAreBounded : Prop :=
  (∀ d div, 1 ≤ div → |psin d div| ≤ 16384 ∧ psin 0 div = 0) ∧
  (∀ (px y : Nat) (a : Anchor), px ≤ 512 → y ≤ 127 → a.ax ≤ 255 → a.ay ≤ 255 →
    plasmaDistance px y a ≤ 571 ∧ plasmaDistance px y a = distance px y a) ∧
  (∀ px y, |plasmaSum plasmaAnchors px y| ≤ 4 * 16384 ∧
    plasmaPosition (plasmaSum plasmaAnchors px y) < 384)

/-- R103, R104: GEN_WAVE draws a new WAVE_COLOR when ANIM_STEP is 0, then for each pixel i the base
color blended by WSIN(ANIM_STEP + i) and scaled by BRIGHTNESS, flushes once, and writes no other
register. -/
def Obligations.WaveDrawsTheBlendedSine : Prop :=
  ∀ s : State, Lit s → Surfaced s →
    ∃ t, exec .genWave s = .next t ∧ t.regs = { s.regs with waveColor := waveBaseAt s } ∧
      DrewFrame s t fun i =>
        dim s.regs.brightness.toNat
          (blendedColor (waveBaseAt s) (wsin s.cfg.n (s.regs.animStep.toNat + i)))

/-- R102: BLEND of a channel by a sine in [-16384, 16384] stays in 0..127, is the base at 0, white at
16384 and black at -16384. -/
def Obligations.BlendStaysBetweenBlackAndWhite : Prop :=
  ∀ (v : Channel) (s : Int), -16384 ≤ s → s ≤ 16384 →
    0 ≤ blendValue v.toNat s ∧ blendValue v.toNat s ≤ 127 ∧
    blendChannel 0 v = v ∧ blendChannel 16384 v = 127 ∧ blendChannel (-16384) v = 0

/-- R101, the properties a model may assume of WSIN: its range, its zeros, its peaks and troughs, its
change of sign after N. -/
def Obligations.WaveSineHasTheStatedProperties : Prop :=
  ∀ n k : Nat, 1 ≤ n →
    |wsin n k| ≤ 16384 ∧ wsin n (k + n) = -wsin n k ∧
    (n ∣ k → wsin n k = 0) ∧
    (∀ j, 2 * k = (2 * j + 1) * n →
      wsin n k = if k % (2 * n) < n then 16384 else -16384)

/-- R101: WSIN(k) is 16384·sin(πk/N) rounded, with the real sine, for every N and every phase the Wave
generator uses. -/
def Obligations.WaveSineIsTheRoundedRealSine : Prop :=
  ∀ n k : Nat, 1 ≤ n → n ≤ 128 → k ≤ 511 →
    IsRha (16384 * Real.sin (Real.pi * k / n)) (wsin n k)

/-- R95: PSIN(D, div) is 16384·sin(D/div) rounded, with the real sine, for every distance of R96 and
the divisors of this hardware's anchors. -/
def Obligations.PlasmaSineIsTheRoundedRealSine : Prop :=
  ∀ d : Nat, d ≤ 571 → ∀ a ∈ plasmaAnchors,
    IsRha (16384 * Real.sin ((d : ℝ) / a.div)) (psin d a.div)

/-- R108, the start of GEN_DITHER: the color is drawn, BUSY set, DSUB cleared, nothing else. -/
def Obligations.GenDitherStartsItsFrame : Prop :=
  ∀ s : State, exec .genDither s = .next { s with
    regs.ditherColor := s.io.colorIn
    regs.busy := true
    regs.dsub := 0 }

/-- R106, R107, R108: in a step with BUSY, DSUB below M and the wait over (or DSUB 0), the engine
writes the scaled DITHER_COLOR at the bit-reversed index, clipped outside the strip, flushes, records
the time and advances DSUB; nothing else changes. -/
def Obligations.DitherSubStepDrawsTheReversedIndex : Prop :=
  ∀ (s : State) (b r : Nat), s.cfg.Valid → (envStep s).io.rst = false → s.regs.busy = true → Lit s →
    IsDitherBits s.cfg.n b → s.regs.dsub.toNat < 2 ^ b → IsReversed b s.regs.dsub.toNat r →
    (s.regs.dsub = 0 ∨
      s.cfg.ditherWait.toNat ≤ elapsed s.regs.dt (envStep s).io.nowMs) →
    step s = .next { envStep s with
      regs.dt := (envStep s).io.nowMs
      regs.dsub := s.regs.dsub + 1
      px :=
        { surf :=
            if r < s.cfg.n then
              s.px.surf.set r (dim s.regs.brightness.toNat s.regs.ditherColor)
            else s.px.surf
          strip :=
            if r < s.cfg.n then
              s.px.surf.set r (dim s.regs.brightness.toNat s.regs.ditherColor)
            else s.px.surf
          events := s.px.events ++
            [.setPixel (BitVec.ofNat 16 r) (dim s.regs.brightness.toNat s.regs.ditherColor),
              .flush] } }

/-- R108, R123, R124: with BUSY, DSUB = M and the wait over, the frame completes with the time of its
TICK, BUSY and DSUB are cleared, and no event is emitted. -/
def Obligations.DitherEndCompletesWithTheTickTime : Prop :=
  ∀ (s : State) (b : Nat), s.cfg.Valid → (envStep s).io.rst = false → s.regs.busy = true →
    IsDitherBits s.cfg.n b → s.regs.dsub.toNat = 2 ^ b →
    s.cfg.ditherWait.toNat ≤ elapsed s.regs.dt (envStep s).io.nowMs →
    step s = .next { completed s.regs.dnow (envStep s) with
      regs.busy := false
      regs.dsub := 0 }

/-- R108, R160: while the wait after a sub-step is not over, the engine holds: a step changes only what
the environment changes. -/
def Obligations.DitherHoldsUntilTheWaitIsOver : Prop :=
  ∀ s : State, s.cfg.Valid → (envStep s).io.rst = false → s.regs.busy = true → s.regs.dsub ≠ 0 →
    elapsed s.regs.dt (envStep s).io.nowMs < s.cfg.ditherWait.toNat →
    step s = .next (envStep s)

/-- R106, R107, R109: the bit count is the least with 2^b ≥ N, `rev_b` reverses the b low bits, and
over 0..2^b - 1 it is a permutation, so every index below N is met exactly once. -/
def Obligations.BitReversalPermutesTheSubSteps : Prop :=
  (∀ n, IsDitherBits n (ditherBits n)) ∧
  (∀ b i, i < 2 ^ b → IsReversed b i (reverseBits b i)) ∧
  (∀ b, ((List.range (2 ^ b)).map (reverseBits b)).Perm (List.range (2 ^ b)))

/-- R108, R109: a Dither frame that has just started is one in progress. From a frame in progress every
step without reset, whatever DITHER_WAIT and the environment's moves, gives a next state in which the
frame is still in progress or has ended with all N pixels drawn, and it moves the frame on whenever the
wait is over. The events stay those of the sub-steps done, in bit-reversed order, and STRIP stays SURF
from the first sub-step on. -/
def Obligations.DitherFrameFillsTheStrip : Prop :=
  (∀ (s : State) (b : Nat), s.cfg.Valid → s.regs.busy = true → s.regs.dsub = 0 → Lit s →
    Surfaced s → IsDitherBits s.cfg.n b →
    InDither b (dim s.regs.brightness.toNat s.regs.ditherColor) s) ∧
  (∀ (s : State) (b : Nat) (c : Color), InDither b c s → (envStep s).io.rst = false →
    ∃ t, step s = .next t ∧
      (InDither b c t ∨ EndedDither c t ∧ t.regs.lastFrame = s.regs.dnow) ∧
      (s.regs.dsub = 0 ∨ s.cfg.ditherWait.toNat ≤ elapsed s.regs.dt (envStep s).io.nowMs →
        t.regs.dsub.toNat = s.regs.dsub.toNat + 1 ∨ t.regs.busy = false) ∧
      (∀ before, s.px.events = before ++ ditherEvents b c (subStepsDone b s) →
        t.px.events = before ++ ditherEvents b c (subStepsDone b t)) ∧
      ((0 < subStepsDone b s → s.px.strip = s.px.surf) →
        0 < subStepsDone b t → t.px.strip = t.px.surf))

/-- R110: each opaque generator completes with some finite `SetPixel`s and one `Flush`; it may write
ANIM_STEP within 0..384, FRAME_STEP within 0..N and its own PRIV, and writes no other register. What
it draws is a free value (log 9): the statement holds whatever it is. -/
def Obligations.OpaqueFrameStaysWithinItsBounds : Prop :=
  ∀ (g : Instr) (m : OpaqueMode), (g, m) ∈ opaqueGenerators → ∀ s : State, s.cfg.n ≤ 128 →
    ∃ (t : State) (ps : List (PixelIndex × Color)), exec g s = .next t ∧
      t.px.events = s.px.events ++ ps.map (fun x => Event.setPixel x.1 x.2) ++ [Event.flush] ∧
      (t.px.surf, t.px.strip) = replay s.cfg.n
        (ps.map (fun x => Event.setPixel x.1 x.2) ++ [Event.flush]) (s.px.surf, s.px.strip) ∧
      (t.regs.animStep = s.regs.animStep ∨ t.regs.animStep.toNat ≤ 384) ∧
      (t.regs.frameStep = s.regs.frameStep ∨ t.regs.frameStep.toNat ≤ s.cfg.n) ∧
      (∀ k, k ≠ m → readPriv t.regs.priv k = readPriv s.regs.priv k) ∧
      t.regs = { s.regs with
        priv := t.regs.priv
        animStep := t.regs.animStep
        frameStep := t.regs.frameStep } ∧
      t.cfg = s.cfg ∧ t.io = s.io
end

