-- ==== Sys2Proof/Laws/Arith.lean ====
section
/-! SUPPORT. The arithmetic of the shared operations as statements about numbers: elapsed time, the
counters' advances, packed colors, the scaler, the integer square root, the plasma sum. -/

namespace Sys2Proof.Machine

/-- Elapsed milliseconds as a number (R121). -/
theorem elapsedSince_eq (base t : Millis) :
    elapsedSince base t = (t.toNat + 2 ^ 32 - base.toNat) % 2 ^ 32 := by
  have hb := base.isLt
  simp only [elapsedSince, BitVec.toNat_sub]
  congr 1
  omega

/-- The tick is gated exactly when less than the threshold has passed (R121). -/
theorem tickGated_iff {t : Millis} {r : Regs} :
    tickGated t r = true ↔ elapsedSince r.lastFrame t < r.interval.toNat * r.speed.toNat := by
  exact decide_eq_true_iff

/-- The wait after a Dither sub-step is over (R108). -/
theorem ditherWaited_iff {s : State} :
    ditherWaited s = true ↔ s.cfg.ditherWait.toNat ≤ elapsedSince s.regs.dt s.io.nowMs := by
  exact decide_eq_true_iff

/-- The advance of ANIM_STEP as a number (R124). -/
theorem toNat_advanceAnim (a : BitVec 9) :
    (advanceAnim a).toNat = if 384 ≤ a.toNat then 0 else a.toNat + 1 := by
  unfold advanceAnim animStepMax
  split
  · rfl
  · rw [BitVec.toNat_add, Nat.mod_eq_of_lt]
    · rfl
    · simp; omega

/-- The advance of FRAME_STEP as a number, for a pixel count that exists (R124, R41). -/
theorem toNat_advanceFrame {n : Nat} (hn : n ≤ 128) (f : BitVec 8) :
    (advanceFrame n f).toNat = if n ≤ f.toNat then 0 else f.toNat + 1 := by
  unfold advanceFrame
  split
  · rfl
  · rw [BitVec.toNat_add, Nat.mod_eq_of_lt]
    · rfl
    · simp; omega

/-- A packed color as a number (R13, R77). -/
theorem toNat_colorWord (c : Color) :
    (colorWord c).toNat = c.r.toNat * 2 ^ 14 + c.g.toNat * 2 ^ 7 + c.b.toNat := by
  have h1 := c.r.isLt
  have h2 := c.g.isLt
  have h3 := c.b.isLt
  simp only [colorWord, packColor, BitVec.toNat_setWidth, BitVec.toNat_append]
  rw [← Nat.shiftLeft_add_eq_or_of_lt c.b.isLt, ← Nat.shiftLeft_add_eq_or_of_lt c.g.isLt]
  simp only [Nat.shiftLeft_eq]
  omega

/-- STATUS as a number (R23). -/
theorem toNat_statusWord (r : Regs) :
    (statusWord r).toNat = r.ill.toNat + 2 * r.stripEn.toNat := by
  unfold statusWord
  cases r.ill <;> cases r.stripEn <;> rfl

/-- The level-2 formula of this hardware as a division (R86). -/
theorem scale2_eq (v : Nat) : scale2 scale2Form v = 3 * v / 4 := by
  simp [scale2, scale2Form, Nat.shiftRight_eq_div_pow]

/-- The binary digits below `2^b` complete a root that is right so far. -/
theorem isqrtFrom_spec (x : Nat) : ∀ b r, r * r ≤ x → x < (r + 2 ^ b) * (r + 2 ^ b) →
    isqrtFrom x b r * isqrtFrom x b r ≤ x ∧
      x < (isqrtFrom x b r + 1) * (isqrtFrom x b r + 1) := by
  intro b
  induction b with
  | zero => intro r h1 h2; exact ⟨h1, by simpa [isqrtFrom] using h2⟩
  | succ b ih =>
    intro r h1 h2
    unfold isqrtFrom
    split
    · rename_i h
      refine ih _ h ?_
      rwa [add_assoc, ← two_mul, ← pow_succ']
    · rename_i h
      exact ih _ h1 (by omega)

/-- `isqrt` is the integer square root (R10). -/
theorem isqrt_eq_sqrt (x : Nat) : isqrt x = Nat.sqrt x := by
  refine Nat.eq_sqrt.mpr (isqrtFrom_spec x (Nat.log2 x / 2 + 1) 0 (by simp) ?_)
  have h : x < 2 ^ (Nat.log2 x + 1) := Nat.lt_log2_self
  refine h.trans_le ((Nat.pow_le_pow_right (by norm_num) ?_).trans_eq
    (b := 2 ^ (2 * (Nat.log2 x / 2 + 1))) ?_)
  · omega
  · rw [two_mul, pow_add]; simp

/-- The four terms of this hardware's plasma sum (R94, R97). -/
theorem plasmaSum_anchors (px y : Nat) :
    plasmaSum plasmaAnchors px y =
      psin (plasmaDistance px y ⟨128, 128, 8⟩) 8 + psin (plasmaDistance px y ⟨64, 64, 8⟩) 8 +
        psin (plasmaDistance px y ⟨192, 64, 7⟩) 7 + psin (plasmaDistance px y ⟨192, 100, 8⟩) 8 := by
  unfold plasmaSum plasmaAnchors
  rw [List.map_cons, List.map_cons, List.map_cons, List.map_cons, List.map_nil, List.sum_cons,
    List.sum_cons, List.sum_cons, List.sum_cons, List.sum_nil, Int.add_zero, Int.add_assoc,
    Int.add_assoc]

end Sys2Proof.Machine
end

