-- ==== Sys2Proof/Laws/Decode.lean ====
section
/-! SUPPORT. The fields of command words, once: what a field of a built word is, that a word is built
of its fields, their values as numbers, and the inversion of the decoder (R64, R65, R69). -/

namespace Sys2Proof

/-- OP as a number: bits 31:24. -/
theorem toNat_opField (w : Word) : (opField w).toNat = w.toNat / 2 ^ 24 := by
  simp only [opField, BitVec.extractLsb'_toNat, Nat.shiftRight_eq_div_pow]
  omega

/-- ARG as a number: bits 23:0. -/
theorem toNat_argField (w : Word) : (argField w).toNat = w.toNat % 2 ^ 24 := by
  simp [argField, BitVec.extractLsb'_toNat]

/-- A word built of two fields, as a number. -/
theorem toNat_commandWord (op : BitVec 8) (arg : BitVec 24) :
    (commandWord op arg).toNat = op.toNat * 2 ^ 24 + arg.toNat := by
  simp only [commandWord, BitVec.toNat_append]
  rw [← Nat.shiftLeft_add_eq_or_of_lt arg.isLt, Nat.shiftLeft_eq]

/-- OP of a word built of OP and ARG. -/
@[simp] theorem opField_commandWord (op : BitVec 8) (arg : BitVec 24) :
    opField (commandWord op arg) = op := by
  apply BitVec.eq_of_toNat_eq
  have := arg.isLt
  rw [toNat_opField, toNat_commandWord]
  omega

/-- ARG of a word built of OP and ARG. -/
@[simp] theorem argField_commandWord (op : BitVec 8) (arg : BitVec 24) :
    argField (commandWord op arg) = arg := by
  apply BitVec.eq_of_toNat_eq
  have := arg.isLt
  rw [toNat_argField, toNat_commandWord]
  omega

/-- A word as a number, from its two fields. -/
theorem toNat_of_fields (w : Word) :
    w.toNat = (opField w).toNat * 2 ^ 24 + (argField w).toNat := by
  rw [toNat_opField, toNat_argField]
  omega

/-- A word is built of its own fields. -/
@[simp] theorem commandWord_fields (w : Word) : commandWord (opField w) (argField w) = w := by
  apply BitVec.eq_of_toNat_eq
  rw [toNat_commandWord, toNat_opField, toNat_argField]
  omega

/-- A field of ARG as a number. -/
theorem toNat_argSlice (arg : BitVec 24) (lsb len : Nat) :
    (arg.extractLsb' lsb len).toNat = arg.toNat / 2 ^ lsb % 2 ^ len := by
  simp [BitVec.extractLsb'_toNat, Nat.shiftRight_eq_div_pow]

/-- ARG of WHEEL is its zero bits and P (R65 format WH). -/
theorem arg_wheel {arg : BitVec 24} (h : arg.extractLsb' 9 15 = 0) :
    0#15 ++ arg.extractLsb' 0 9 = arg := by
  apply BitVec.eq_of_toNat_eq
  have h' := congrArg BitVec.toNat h
  simp only [toNat_argSlice] at h'
  have hz : (0 : BitVec 15).toNat = 0 := rfl
  rw [hz] at h'
  rw [BitVec.toNat_append, ← Nat.shiftLeft_add_eq_or_of_lt (BitVec.isLt _), toNat_argSlice]
  have := arg.isLt
  simp
  omega

/-- ARG of READ_REG is its zero bits and IDX (R65 format RR). -/
theorem arg_readReg {arg : BitVec 24} (h : arg.extractLsb' 4 20 = 0) :
    0#20 ++ arg.extractLsb' 0 4 = arg := by
  apply BitVec.eq_of_toNat_eq
  have h' := congrArg BitVec.toNat h
  simp only [toNat_argSlice] at h'
  have hz : (0 : BitVec 20).toNat = 0 := rfl
  rw [hz] at h'
  rw [BitVec.toNat_append, ← Nat.shiftLeft_add_eq_or_of_lt (BitVec.isLt _), toNat_argSlice]
  have := arg.isLt
  simp
  omega

/-- A level and three channels side by side, as a number. -/
theorem toNat_levelColor (lvl : BitVec 3) (r g b : Channel) :
    (lvl ++ r ++ g ++ b).toNat =
      lvl.toNat * 2 ^ 21 + r.toNat * 2 ^ 14 + g.toNat * 2 ^ 7 + b.toNat := by
  simp only [BitVec.toNat_append]
  rw [← Nat.shiftLeft_add_eq_or_of_lt b.isLt, ← Nat.shiftLeft_add_eq_or_of_lt g.isLt,
    ← Nat.shiftLeft_add_eq_or_of_lt r.isLt]
  simp only [Nat.shiftLeft_eq]
  omega

/-- ARG of SCALE is its four fields (R65 format SC). -/
theorem arg_scale (arg : BitVec 24) :
    arg.extractLsb' 21 3 ++ arg.extractLsb' 14 7 ++ arg.extractLsb' 7 7 ++ arg.extractLsb' 0 7 =
      arg := by
  apply BitVec.eq_of_toNat_eq
  rw [toNat_levelColor]
  simp only [toNat_argSlice]
  have := arg.isLt
  omega

/-- The rows of the opcode map with what the decoder has checked of the word (R69). -/
inductive Row : Instr → (op : Nat) → BitVec 24 → Prop where
  | nop : Row .nop 0x00 0
  | tick : Row .tick 0x01 0
  | stepMode : Row .stepMode 0x02 0
  | stepSpeed : Row .stepSpeed 0x03 0
  | stepBrightness : Row .stepBrightness 0x04 0
  | toggleEnable : Row .toggleEnable 0x05 0
  | wheel (arg : BitVec 24) (h : arg.extractLsb' 9 15 = 0) :
      Row (.wheel (arg.extractLsb' 0 9)) 0x10 arg
  | scale (arg : BitVec 24) (h : levelLegal (arg.extractLsb' 21 3) = true) :
      Row (.scale (arg.extractLsb' 21 3)
        ⟨arg.extractLsb' 14 7, arg.extractLsb' 7 7, arg.extractLsb' 0 7⟩) 0x11 arg
  | readReg (arg : BitVec 24) (h : arg.extractLsb' 4 20 = 0)
      (hi : indexLegal (arg.extractLsb' 0 4) = true) :
      Row (.readReg (arg.extractLsb' 0 4)) 0x20 arg

/-- The inversion of format Z. -/
theorem decodeZ_eq_ok {i j : Instr} {arg : BitVec 24} (h : decodeZ i arg = .ok j) :
    i = j ∧ arg = 0 := by
  unfold decodeZ at h
  split at h
  · cases h; exact ⟨rfl, ‹_›⟩
  · cases h

/-- The inversion of the decoder: a word that decodes is a row of the opcode map. -/
theorem decode_eq_ok {w : Word} {i : Instr} (h : decode w = .ok i) :
    Row i (opField w).toNat (argField w) := by
  unfold decode at h
  split at h
  · rename_i ho; obtain ⟨rfl, ha⟩ := decodeZ_eq_ok h; rw [ho, ha]; exact .nop
  · rename_i ho; obtain ⟨rfl, ha⟩ := decodeZ_eq_ok h; rw [ho, ha]; exact .tick
  · rename_i ho; obtain ⟨rfl, ha⟩ := decodeZ_eq_ok h; rw [ho, ha]; exact .stepMode
  · rename_i ho; obtain ⟨rfl, ha⟩ := decodeZ_eq_ok h; rw [ho, ha]; exact .stepSpeed
  · rename_i ho; obtain ⟨rfl, ha⟩ := decodeZ_eq_ok h; rw [ho, ha]; exact .stepBrightness
  · rename_i ho; obtain ⟨rfl, ha⟩ := decodeZ_eq_ok h; rw [ho, ha]; exact .toggleEnable
  · rename_i ho
    unfold decodeWH at h
    split at h
    · cases h; rw [ho]; exact .wheel _ ‹_›
    · cases h
  · rename_i ho
    unfold decodeSC at h
    split at h
    · cases h; rw [ho]; exact .scale _ ‹_›
    · cases h
  · rename_i ho
    unfold decodeRR at h
    split at h
    · split at h
      · cases h; rw [ho]; exact .readReg _ ‹_› ‹_›
      · cases h
    · cases h
  · cases h

/-- A word that decodes, as a row and as the number its fields make. -/
theorem row_of_decode {w : Word} {i : Instr} (h : decode w = .ok i) :
    ∃ op arg, Row i op arg ∧ w.toNat = op * 2 ^ 24 + arg.toNat :=
  ⟨_, _, decode_eq_ok h, toNat_of_fields w⟩

/-- No command word decodes to a generator (R78). -/
theorem not_generator_of_decode {w : Word} {i : Instr} (h : decode w = .ok i) :
    i.isGenerator = false := by
  obtain ⟨op, arg, hr, -⟩ := row_of_decode h
  cases hr <;> rfl

end Sys2Proof
end

