-- ==== Sys2Proof/Laws/State.lean ====
section
/-! SUPPORT. One lemma per field of State and per shared update, so that no proof unfolds an update
again; and the flags and register updates that are smaller than a state. -/

namespace Sys2Proof.Machine

@[simp] theorem emitFrame_cfg (ps : List (PixelIndex × Color)) (s : State) :
    (emitFrame ps s).cfg = s.cfg := rfl

@[simp] theorem emitFrame_regs (ps : List (PixelIndex × Color)) (s : State) :
    (emitFrame ps s).regs = s.regs := rfl

@[simp] theorem emitFrame_px (ps : List (PixelIndex × Color)) (s : State) :
    (emitFrame ps s).px = s.px.frame s.cfg.n ps := rfl

@[simp] theorem emitFrame_io (ps : List (PixelIndex × Color)) (s : State) :
    (emitFrame ps s).io = s.io := rfl

@[simp] theorem emitFrame_draws (ps : List (PixelIndex × Color)) (s : State) :
    (emitFrame ps s).draws = s.draws := rfl

@[simp] theorem writeResult_cfg (v : Word) (s : State) :
    (writeResult v s).cfg = s.cfg := rfl

@[simp] theorem writeResult_regs (v : Word) (s : State) :
    (writeResult v s).regs = { s.regs with result := v } := rfl

@[simp] theorem writeResult_px (v : Word) (s : State) :
    (writeResult v s).px = s.px := rfl

@[simp] theorem writeResult_io (v : Word) (s : State) :
    (writeResult v s).io = s.io := rfl

@[simp] theorem writeResult_draws (v : Word) (s : State) :
    (writeResult v s).draws = s.draws := rfl

@[simp] theorem complete_cfg (t : Millis) (s : State) :
    (complete t s).cfg = s.cfg := rfl

@[simp] theorem complete_regs (t : Millis) (s : State) :
    (complete t s).regs = { s.regs with
      animStep := advanceAnim s.regs.animStep
      frameStep := advanceFrame s.cfg.n s.regs.frameStep
      lastFrame := t } := rfl

@[simp] theorem complete_px (t : Millis) (s : State) :
    (complete t s).px = s.px := rfl

@[simp] theorem complete_io (t : Millis) (s : State) :
    (complete t s).io = s.io := rfl

@[simp] theorem complete_draws (t : Millis) (s : State) :
    (complete t s).draws = s.draws := rfl

@[simp] theorem markIllegal_cfg (s : State) :
    (markIllegal s).cfg = s.cfg := rfl

@[simp] theorem markIllegal_regs (s : State) :
    (markIllegal s).regs = setIll s.regs := rfl

@[simp] theorem markIllegal_px (s : State) :
    (markIllegal s).px = s.px := rfl

@[simp] theorem markIllegal_io (s : State) :
    (markIllegal s).io = s.io := rfl

@[simp] theorem markIllegal_draws (s : State) :
    (markIllegal s).draws = s.draws := rfl

@[simp] theorem applyReset_cfg (s : State) :
    (applyReset s).cfg = s.cfg := rfl

@[simp] theorem applyReset_regs (s : State) :
    (applyReset s).regs = Regs.reset (Config.privDraw s.draws) := rfl

@[simp] theorem applyReset_px (s : State) :
    (applyReset s).px = { s.px with
      surf := drawnColors s.cfg.n (Config.surfDraw s.draws)
      strip := stripAfterReset s } := rfl

@[simp] theorem applyReset_io (s : State) :
    (applyReset s).io = { s.io with rstHeld := true } := rfl

@[simp] theorem applyReset_draws (s : State) :
    (applyReset s).draws = s.draws + 1 := rfl

@[simp] theorem applyOpaqueFrame_cfg (m : OpaqueMode) (f : OpaqueFrame) (s : State) :
    (applyOpaqueFrame m f s).cfg = s.cfg := rfl

@[simp] theorem applyOpaqueFrame_regs (m : OpaqueMode) (f : OpaqueFrame) (s : State) :
    (applyOpaqueFrame m f s).regs = { s.regs with
      priv := opaquePriv m f.priv s.regs.priv
      animStep := opaqueAnim f.animStep s.regs.animStep
      frameStep := opaqueFrameStep s.cfg.n f.frameStep s.regs.frameStep } := rfl

@[simp] theorem applyOpaqueFrame_px (m : OpaqueMode) (f : OpaqueFrame) (s : State) :
    (applyOpaqueFrame m f s).px = s.px.frame s.cfg.n f.pixels := rfl

@[simp] theorem applyOpaqueFrame_io (m : OpaqueMode) (f : OpaqueFrame) (s : State) :
    (applyOpaqueFrame m f s).io = s.io := rfl

@[simp] theorem applyOpaqueFrame_draws (m : OpaqueMode) (f : OpaqueFrame) (s : State) :
    (applyOpaqueFrame m f s).draws = s.draws := rfl

@[simp] theorem withPort_cfg (rest : List Word) (s : State) :
    (withPort rest s).cfg = s.cfg := rfl

@[simp] theorem withPort_regs (rest : List Word) (s : State) :
    (withPort rest s).regs = s.regs := rfl

@[simp] theorem withPort_px (rest : List Word) (s : State) :
    (withPort rest s).px = s.px := rfl

@[simp] theorem withPort_io (rest : List Word) (s : State) :
    (withPort rest s).io = { s.io with port := rest } := rfl

@[simp] theorem withPort_draws (rest : List Word) (s : State) :
    (withPort rest s).draws = s.draws := rfl

@[simp] theorem startDither_cfg (s : State) :
    (startDither s).cfg = s.cfg := rfl

@[simp] theorem startDither_regs (s : State) :
    (startDither s).regs = { s.regs with
      ditherColor := drawColor s
      busy := true
      dsub := 0 } := rfl

@[simp] theorem startDither_px (s : State) :
    (startDither s).px = s.px := rfl

@[simp] theorem startDither_io (s : State) :
    (startDither s).io = s.io := rfl

@[simp] theorem startDither_draws (s : State) :
    (startDither s).draws = s.draws := rfl

@[simp] theorem subStepDither_cfg (l : Level) (s : State) :
    (subStepDither l s).cfg = s.cfg := rfl

@[simp] theorem subStepDither_regs (l : Level) (s : State) :
    (subStepDither l s).regs = { s.regs with
      dt := now s
      dsub := s.regs.dsub + 1 } := rfl

@[simp] theorem subStepDither_px (l : Level) (s : State) :
    (subStepDither l s).px = s.px.frame s.cfg.n [(ditherIndex s, scaleColor l s.regs.ditherColor)] := rfl

@[simp] theorem subStepDither_io (l : Level) (s : State) :
    (subStepDither l s).io = s.io := rfl

@[simp] theorem subStepDither_draws (l : Level) (s : State) :
    (subStepDither l s).draws = s.draws := rfl

@[simp] theorem endDither_cfg (s : State) :
    (endDither s).cfg = s.cfg := rfl

@[simp] theorem endDither_regs (s : State) :
    (endDither s).regs = { s.regs with
      animStep := advanceAnim s.regs.animStep
      frameStep := advanceFrame s.cfg.n s.regs.frameStep
      lastFrame := s.regs.dnow
      busy := false
      dsub := 0 } := rfl

@[simp] theorem endDither_px (s : State) :
    (endDither s).px = s.px := rfl

@[simp] theorem endDither_io (s : State) :
    (endDither s).io = s.io := rfl

@[simp] theorem endDither_draws (s : State) :
    (endDither s).draws = s.draws := rfl

@[simp] theorem now_withPort (rest : List Word) (s : State) : now (withPort rest s) = now s := rfl

@[simp] theorem drawColor_withPort (rest : List Word) (s : State) :
    drawColor (withPort rest s) = drawColor s := rfl

@[simp] theorem setIll_eq (r : Regs) : setIll r = { r with ill := true } := rfl

@[simp] theorem flipStripEn_eq (r : Regs) : flipStripEn r = { r with stripEn := !r.stripEn } := rfl

/-- What a Dither frame has flushed stays on the strip over a reset (R151). -/
theorem stripAfterReset_of_flushed {s : State} (hb : s.regs.busy = true) (hd : s.regs.dsub ≠ 0) :
    stripAfterReset s = s.px.strip := by
  have hf : ditherFlushed s.regs = true := by rw [ditherFlushed, hb, decide_eq_true hd]; rfl
  rw [stripAfterReset, hf, Bool.or_true]; rfl

/-- A later step of the same reset keeps STRIP. -/
theorem stripAfterReset_of_held {s : State} (h : s.io.rstHeld = true) :
    stripAfterReset s = s.px.strip := by
  rw [stripAfterReset, h, Bool.true_or]; rfl

/-- Otherwise STRIP is drawn (R47, R152). -/
theorem stripAfterReset_of_drawn {s : State} (h : s.io.rstHeld = false)
    (hf : ditherFlushed s.regs = false) :
    stripAfterReset s = drawnColors s.cfg.n (Config.stripDraw s.draws) := by
  rw [stripAfterReset, h, hf]; rfl

/-- An environment move changes only the inputs. -/
@[simp] theorem envStep_cfg (s : State) : (envStep s).cfg = s.cfg := by
  unfold envStep; split <;> rfl

@[simp] theorem envStep_regs (s : State) : (envStep s).regs = s.regs := by
  unfold envStep; split <;> rfl

@[simp] theorem envStep_px (s : State) : (envStep s).px = s.px := by
  unfold envStep; split <;> rfl

@[simp] theorem envStep_draws (s : State) : (envStep s).draws = s.draws := by
  unfold envStep; split <;> rfl

/-- With no move left the pins keep their values. -/
theorem envStep_nil {s : State} (h : s.io.env = []) : envStep s = s := by
  unfold envStep; rw [h]

/-- The word on the port is the first of those issued; taking it changes only the port. -/
theorem acceptWord_eq_some {s s' : State} {w : Word} :
    acceptWord s = some (w, s') ↔
      ∃ rest, s.io.port = w :: rest ∧ s' = withPort rest s := by
  unfold acceptWord
  split
  · rename_i h; simp [h]
  · rename_i v rest h
    simp only [Option.some.injEq, Prod.mk.injEq, h, List.cons.injEq]
    constructor
    · rintro ⟨rfl, rfl⟩; exact ⟨rest, ⟨rfl, rfl⟩, rfl⟩
    · rintro ⟨r, ⟨rfl, rfl⟩, rfl⟩; exact ⟨rfl, rfl⟩

theorem acceptWord_eq_none {s : State} : acceptWord s = none ↔ s.io.port = [] := by
  unfold acceptWord; split <;> simp_all

/-- Reading `PRIV[m]` after writing it, and the other private states kept. -/
@[simp] theorem readPriv_writePriv_same (f : PrivFile) (m : OpaqueMode) (v : PrivContent) :
    readPriv (writePriv f m v) m = v := by
  cases m <;> rfl

theorem readPriv_writePriv_other (f : PrivFile) {m k : OpaqueMode} (v : PrivContent) (h : k ≠ m) :
    readPriv (writePriv f m v) k = readPriv f k := by
  cases m <;> cases k <;> first | rfl | exact absurd rfl h

/-- An opaque frame of generator `m` leaves every other private state alone. -/
theorem readPriv_opaquePriv_other (f : PrivFile) {m k : OpaqueMode} (v : Option PrivContent)
    (h : k ≠ m) : readPriv (opaquePriv m v f) k = readPriv f k := by
  cases v with
  | none => rfl
  | some v => exact readPriv_writePriv_other f v h

end Sys2Proof.Machine
end

