-- ==== Sys2Proof/Laws/Surface.lean ====
section
/-! SUPPORT. What the Pixel Surface operations do, said once: reading a pixel after a write, the form
of the arrays kept, and the whole effect of a frame (R49 to R51, R54, R55). -/

namespace Sys2Proof.Machine

variable {n : Nat}

/-- A write keeps the number of pixels. -/
@[simp] theorem length_writePixel (m : List Color) (idx : PixelIndex) (c : Color) :
    (writePixel n m idx c).length = m.length := by
  unfold writePixel; split <;> simp

/-- Reading the pixel just written. -/
theorem readPixel_writePixel_same {m : List Color} {idx : PixelIndex} {c : Color}
    (hm : Memory.wf n m) (h : idx.toNat < n) :
    readPixel (writePixel n m idx c) idx.toNat = some c := by
  simp only [readPixel, writePixel, h, if_true]
  rw [List.getElem?_set_self (by omega)]

/-- Every other pixel is kept. -/
theorem readPixel_writePixel_other (m : List Color) {idx : PixelIndex} {i : Nat} (c : Color)
    (h : idx.toNat ≠ i) : readPixel (writePixel n m idx c) i = readPixel m i := by
  unfold readPixel writePixel
  split
  · exact List.getElem?_set_ne h
  · rfl

/-- A write outside the strip changes nothing (R50). -/
theorem writePixel_outside (m : List Color) {idx : PixelIndex} (c : Color) (h : n ≤ idx.toNat) :
    writePixel n m idx c = m := by
  unfold writePixel; rw [if_neg (by omega)]

@[simp] theorem setPixel_surf (idx : PixelIndex) (c : Color) (p : PixelSurface) :
    (p.setPixel n idx c).surf = writePixel n p.surf idx c := rfl

@[simp] theorem setPixel_strip (idx : PixelIndex) (c : Color) (p : PixelSurface) :
    (p.setPixel n idx c).strip = p.strip := rfl

@[simp] theorem setPixel_events (idx : PixelIndex) (c : Color) (p : PixelSurface) :
    (p.setPixel n idx c).events = p.events ++ [.setPixel idx c] := rfl

@[simp] theorem flush_surf (p : PixelSurface) : p.flush.surf = p.surf := rfl

@[simp] theorem flush_strip (p : PixelSurface) : p.flush.strip = p.surf := rfl

@[simp] theorem flush_events (p : PixelSurface) : p.flush.events = p.events ++ [.flush] := rfl

/-- The pixel writes of a list, in order, on an array. -/
def writePixels (n : Nat) (ps : List (PixelIndex × Color)) (m : List Color) : List Color :=
  ps.foldl (fun a x => writePixel n a x.1 x.2) m

@[simp] theorem length_writePixels (ps : List (PixelIndex × Color)) (m : List Color) :
    (writePixels n ps m).length = m.length := by
  unfold writePixels
  induction ps generalizing m with
  | nil => rfl
  | cons x ps ih => simp [ih]

@[simp] theorem setPixels_surf (ps : List (PixelIndex × Color)) (p : PixelSurface) :
    (p.setPixels n ps).surf = writePixels n ps p.surf := by
  unfold PixelSurface.setPixels writePixels
  induction ps generalizing p with
  | nil => rfl
  | cons x ps ih => simp [ih]

@[simp] theorem setPixels_strip (ps : List (PixelIndex × Color)) (p : PixelSurface) :
    (p.setPixels n ps).strip = p.strip := by
  unfold PixelSurface.setPixels
  induction ps generalizing p with
  | nil => rfl
  | cons x ps ih => simp [ih]

@[simp] theorem setPixels_events (ps : List (PixelIndex × Color)) (p : PixelSurface) :
    (p.setPixels n ps).events = p.events ++ ps.map fun x => .setPixel x.1 x.2 := by
  unfold PixelSurface.setPixels
  induction ps generalizing p with
  | nil => simp
  | cons x ps ih => simp [ih]

/-- A frame's effect on SURF (R49). -/
@[simp] theorem frame_surf (ps : List (PixelIndex × Color)) (p : PixelSurface) :
    (p.frame n ps).surf = writePixels n ps p.surf := by
  simp [PixelSurface.frame]

/-- A frame's effect on STRIP: the whole of SURF as the frame left it (R51, R55). -/
@[simp] theorem frame_strip (ps : List (PixelIndex × Color)) (p : PixelSurface) :
    (p.frame n ps).strip = writePixels n ps p.surf := by
  simp [PixelSurface.frame]

/-- The events of a frame: its `SetPixel`s in order and one `Flush` (R90). -/
@[simp] theorem frame_events (ps : List (PixelIndex × Color)) (p : PixelSurface) :
    (p.frame n ps).events = p.events ++ ((ps.map fun x => .setPixel x.1 x.2) ++ [.flush]) := by
  simp [PixelSurface.frame]

/-- A frame keeps the form of both arrays. -/
theorem frame_wf {ps : List (PixelIndex × Color)} {p : PixelSurface} (h : Memory.wf n p.surf) :
    Memory.wf n (p.frame n ps).surf ∧ Memory.wf n (p.frame n ps).strip := by
  simpa [Memory.wf] using h

/-- A pixel no write of the list names is kept. -/
theorem readPixel_writePixels_other {ps : List (PixelIndex × Color)} {i : Nat}
    (h : ∀ x ∈ ps, x.1.toNat ≠ i) (m : List Color) :
    readPixel (writePixels n ps m) i = readPixel m i := by
  unfold writePixels
  induction ps generalizing m with
  | nil => rfl
  | cons x ps ih =>
    rw [List.foldl_cons, ih fun y hy => h y (by simp [hy])]
    exact readPixel_writePixel_other m x.2 (h x (by simp))

/-- Writing the pixels 0..k-1 one after the other: each of them then holds its own color. -/
theorem readPixel_writePixels_range {m : List Color} (f : Nat → Color) (hm : Memory.wf n m)
    (hn : n ≤ 65536) (k : Nat) (hk : k ≤ n) (i : Nat) (hi : i < k) :
    readPixel (writePixels n ((List.range k).map fun j => (BitVec.ofNat 16 j, f j)) m) i =
      some (f i) := by
  induction k with
  | zero => omega
  | succ k ih =>
    have hlen : Memory.wf n
        (writePixels n ((List.range k).map fun j => (BitVec.ofNat 16 j, f j)) m) := by
      simpa [Memory.wf] using hm
    have hstep : writePixels n ((List.range (k + 1)).map fun j => (BitVec.ofNat 16 j, f j)) m =
        writePixel n (writePixels n ((List.range k).map fun j => (BitVec.ofNat 16 j, f j)) m)
          (BitVec.ofNat 16 k) (f k) := by
      simp [writePixels, List.range_succ]
    have hk16 : (BitVec.ofNat 16 k).toNat = k := by
      simp only [BitVec.toNat_ofNat]; omega
    rw [hstep]
    by_cases h : i = k
    · subst h
      have := readPixel_writePixel_same (idx := BitVec.ofNat 16 i) (c := f i) hlen (by omega)
      rwa [hk16] at this
    · rw [readPixel_writePixel_other _ _ (by omega)]
      exact ih (by omega) (by omega)

/-- `N` drawn colors are `N` pixels. -/
@[simp] theorem length_drawnColors (n : Nat) (draw : Nat → Color) :
    (drawnColors n draw).length = n := by
  simp [drawnColors]

/-- A pixel write keeps the form of its array. -/
theorem writePixel_wf {m : List Color} (h : Memory.wf n m) (idx : PixelIndex) (c : Color) :
    Memory.wf n (writePixel n m idx c) := by
  simpa [Memory.wf] using h

/-- `SetPixel` keeps the form of both arrays. -/
theorem setPixel_wf {p : PixelSurface} (hs : Memory.wf n p.surf) (ht : Memory.wf n p.strip)
    (idx : PixelIndex) (c : Color) :
    Memory.wf n (p.setPixel n idx c).surf ∧ Memory.wf n (p.setPixel n idx c).strip :=
  ⟨writePixel_wf hs idx c, ht⟩

/-- `Flush` keeps the form of both arrays. -/
theorem flush_wf {p : PixelSurface} (hs : Memory.wf n p.surf) :
    Memory.wf n p.flush.surf ∧ Memory.wf n p.flush.strip :=
  ⟨hs, hs⟩

/-- STRIP after a reset has its form. -/
theorem stripAfterReset_wf {s : State} (ht : Memory.wf s.cfg.n s.px.strip) :
    Memory.wf s.cfg.n (stripAfterReset s) := by
  unfold stripAfterReset
  split
  · exact ht
  · exact length_drawnColors _ _

/-- `rst` keeps the form of both arrays. -/
theorem applyReset_wf {s : State} (ht : Memory.wf s.cfg.n s.px.strip) :
    Memory.wf s.cfg.n (applyReset s).px.surf ∧ Memory.wf s.cfg.n (applyReset s).px.strip :=
  ⟨length_drawnColors _ _, stripAfterReset_wf ht⟩

/-- The pixel arrays right after reset have their form. -/
theorem reset_memory_wf :
    Memory.wf State.reset.cfg.n State.reset.px.surf ∧
      Memory.wf State.reset.cfg.n State.reset.px.strip :=
  ⟨length_drawnColors _ _, length_drawnColors _ _⟩

end Sys2Proof.Machine
end

