-- ==== Sys2Proof/Laws/Exec.lean ====
section
/-! SUPPORT. What the meanings and the step can do, said once: one inversion lemma per shared operation
and per group of instructions, for the later proofs to cite instead of unfolding. -/

namespace Sys2Proof.Machine

variable {s t : State}

/-- BRIGHTNESS stands for a level exactly when it is 1..5 (R19). -/
theorem levelOf_eq_some {v : BitVec 3} {l : Level} : levelOf v = some l ↔ v.toNat = levelNumber l := by
  have h : v.toNat = 0 ∨ v.toNat = 1 ∨ v.toNat = 2 ∨ v.toNat = 3 ∨ v.toNat = 4 ∨ v.toNat = 5 ∨
      v.toNat = 6 ∨ v.toNat = 7 := by omega
  rcases h with h | h | h | h | h | h | h | h <;> cases l <;> simp [levelOf, levelNumber, h]

/-- A value in 1..5 stands for a level. -/
theorem exists_levelOf {v : BitVec 3} (h : 1 ≤ v.toNat ∧ v.toNat ≤ 5) :
    ∃ l, levelOf v = some l ∧ v.toNat = levelNumber l := by
  have h5 : v.toNat = 1 ∨ v.toNat = 2 ∨ v.toNat = 3 ∨ v.toNat = 4 ∨ v.toNat = 5 := by omega
  rcases h5 with h | h | h | h | h
  · exact ⟨.l1, by simp [levelOf_eq_some, levelNumber, h]⟩
  · exact ⟨.l2, by simp [levelOf_eq_some, levelNumber, h]⟩
  · exact ⟨.l3, by simp [levelOf_eq_some, levelNumber, h]⟩
  · exact ⟨.l4, by simp [levelOf_eq_some, levelNumber, h]⟩
  · exact ⟨.l5, by simp [levelOf_eq_some, levelNumber, h]⟩

/-- The values BRIGHTNESS never holds stand for none. -/
theorem levelOf_eq_none {v : BitVec 3} (h : v.toNat = 0 ∨ 6 ≤ v.toNat) : levelOf v = none := by
  have h3 : v.toNat = 0 ∨ v.toNat = 6 ∨ v.toNat = 7 := by omega
  rcases h3 with h | h | h <;> simp [levelOf, h]

/-- With BRIGHTNESS 1..5 a color can be scaled. -/
theorem withBrightness_of_level {k : Level → Result} {l : Level}
    (h : levelOf s.regs.brightness = some l) : withBrightness s k = k l := by
  unfold withBrightness; rw [h]

/-- Scaling answers only through a level: never a fault of its own. -/
theorem withBrightness_eq_next {k : Level → Result} (h : withBrightness s k = .next t) :
    ∃ l, levelOf s.regs.brightness = some l ∧ k l = .next t := by
  unfold withBrightness at h
  split at h
  · exact ⟨_, ‹_›, h⟩
  · cases h

/-- It faults only where its continuation does. -/
theorem withBrightness_ne_fault {k : Level → Result} {f : Fault} (hk : ∀ l, k l ≠ .fault f) :
    withBrightness s k ≠ .fault f := by
  unfold withBrightness
  split
  · exact hk _
  · intro h; cases h

/-- An index of the register read map is assigned exactly when it is 0..10 (R34). -/
theorem readRegister_eq_none {idx : BitVec 4} : readRegister idx s = none ↔ 11 ≤ idx.toNat := by
  unfold readRegister
  split <;> simp_all
  omega

/-- The registers that no generator writes (R90), and PRIV of the other generators. -/
structure GeneratorFrame (s t : State) : Prop where
  cfg : t.cfg = s.cfg
  io : t.io = s.io
  mode : t.regs.mode = s.regs.mode
  speed : t.regs.speed = s.regs.speed
  brightness : t.regs.brightness = s.regs.brightness
  lastFrame : t.regs.lastFrame = s.regs.lastFrame
  interval : t.regs.interval = s.regs.interval
  ill : t.regs.ill = s.regs.ill
  stripEn : t.regs.stripEn = s.regs.stripEn
  result : t.regs.result = s.regs.result
  dt : t.regs.dt = s.regs.dt
  dnow : t.regs.dnow = s.regs.dnow

/-- The frame an opaque generator draws in this state (a free value). -/
abbrev drawnFrame (m : OpaqueMode) (s : State) : OpaqueFrame :=
  Config.opaqueFrame m (opaqueView m s)

/-- What one frame of an opaque generator leaves, field by field. -/
@[simp] theorem runOpaque_cfg (m : OpaqueMode) (s : State) : (runOpaque m s).cfg = s.cfg := rfl

@[simp] theorem runOpaque_io (m : OpaqueMode) (s : State) : (runOpaque m s).io = s.io := rfl

@[simp] theorem runOpaque_draws (m : OpaqueMode) (s : State) :
    (runOpaque m s).draws = s.draws + 1 := rfl

@[simp] theorem runOpaque_px (m : OpaqueMode) (s : State) :
    (runOpaque m s).px = s.px.frame s.cfg.n (drawnFrame m s).pixels := rfl

@[simp] theorem runOpaque_regs (m : OpaqueMode) (s : State) :
    (runOpaque m s).regs = { s.regs with
      priv := opaquePriv m (drawnFrame m s).priv s.regs.priv
      animStep := opaqueAnim (drawnFrame m s).animStep s.regs.animStep
      frameStep := opaqueFrameStep s.cfg.n (drawnFrame m s).frameStep s.regs.frameStep } := rfl

/-- The opaque generators and their private states. -/
inductive IsOpaque : Instr → OpaqueMode → Prop where
  | breathing : IsOpaque .genBreathing .breathing
  | chase : IsOpaque .genChase .chase
  | wipe : IsOpaque .genWipe .wipe
  | sparkle : IsOpaque .genSparkle .sparkle
  | scanner : IsOpaque .genScanner .scanner
  | sparkler : IsOpaque .genSparkler .sparkler
  | fadeIn : IsOpaque .genFadeIn .fadeIn
  | fadeOut : IsOpaque .genFadeOut .fadeOut

/-- Every opaque generator is the shared opaque frame. -/
theorem exec_opaque {g : Instr} {m : OpaqueMode} (h : IsOpaque g m) (s : State) :
    exec g s = .next (runOpaque m s) := by
  cases h <;> rfl

/-- What a generator can do, once for all twelve: draw a frame as an exact generator (Wave may also
draw its color), start a Dither frame, or run an opaque frame. -/
inductive GeneratorEffect (s : State) : Instr → State → Prop where
  | rainbow (ps : List (PixelIndex × Color)) :
      GeneratorEffect s .genRainbow (emitFrame ps s)
  | plasma (ps : List (PixelIndex × Color)) :
      GeneratorEffect s .genPlasma (emitFrame ps s)
  | wave (ps : List (PixelIndex × Color)) :
      GeneratorEffect s .genWave (emitFrame ps { s with regs.waveColor := waveBase s })
  | dither : GeneratorEffect s .genDither (startDither s)
  | opaqueRun {g : Instr} {m : OpaqueMode} (h : IsOpaque g m) :
      GeneratorEffect s g (runOpaque m s)

/-- The inversion lemma of the generators. -/
theorem generator_effect {g : Instr} (hg : g.isGenerator = true) (h : exec g s = .next t) :
    GeneratorEffect s g t := by
  cases g with
  | genRainbow =>
    obtain ⟨l, -, h⟩ := withBrightness_eq_next h
    cases h; exact .rainbow _
  | genPlasma =>
    obtain ⟨l, -, h⟩ := withBrightness_eq_next h
    cases h; exact .plasma _
  | genWave =>
    obtain ⟨l, -, h⟩ := withBrightness_eq_next h
    cases h; exact .wave _
  | genDither => cases h; exact .dither
  | genBreathing => cases h; exact .opaqueRun .breathing
  | genChase => cases h; exact .opaqueRun .chase
  | genWipe => cases h; exact .opaqueRun .wipe
  | genSparkle => cases h; exact .opaqueRun .sparkle
  | genScanner => cases h; exact .opaqueRun .scanner
  | genSparkler => cases h; exact .opaqueRun .sparkler
  | genFadeIn => cases h; exact .opaqueRun .fadeIn
  | genFadeOut => cases h; exact .opaqueRun .fadeOut
  | nop | tick | stepMode | stepSpeed | stepBrightness | toggleEnable | wheel | scale | readReg =>
    cases hg

/-- A generator leaves the registers R90 names. -/
theorem generator_frame {g : Instr} (h : GeneratorEffect s g t) : GeneratorFrame s t := by
  cases h <;> exact ⟨rfl, rfl, rfl, rfl, rfl, rfl, rfl, rfl, rfl, rfl, rfl, rfl⟩

/-- With BRIGHTNESS 1..5 every generator completes. -/
theorem generator_completes {g : Instr} (hg : g.isGenerator = true)
    (hb : 1 ≤ s.regs.brightness.toNat ∧ s.regs.brightness.toNat ≤ 5) : ∃ t, exec g s = .next t := by
  obtain ⟨l, hl, -⟩ := exists_levelOf hb
  cases g with
  | genRainbow => exact ⟨_, withBrightness_of_level hl⟩
  | genPlasma => exact ⟨_, withBrightness_of_level hl⟩
  | genWave => exact ⟨_, withBrightness_of_level hl⟩
  | genDither | genBreathing | genChase | genWipe | genSparkle | genScanner | genSparkler
  | genFadeIn | genFadeOut => exact ⟨_, rfl⟩
  | nop | tick | stepMode | stepSpeed | stepBrightness | toggleEnable | wheel | scale | readReg =>
    cases hg

/-- The generators that MODE values select. -/
theorem decodeDispatch_isGenerator {m : BitVec 4} {g : Instr} (h : decodeDispatch m = .ok g) :
    g.isGenerator = true := by
  unfold decodeDispatch at h
  split at h <;> cases h <;> rfl

/-- TICK runs the very meaning of the generator that MODE selects (R92, R122). -/
theorem runGenerator_eq_exec {g : Instr} (h : decodeDispatch s.regs.mode = .ok g) :
    runGenerator s = exec g s := by
  have hg := decodeDispatch_isGenerator h
  unfold runGenerator
  rw [h]
  cases g <;> first | rfl | cases hg

/-- A generator runs only when MODE selects one. -/
theorem runGenerator_eq_next (h : runGenerator s = .next t) :
    ∃ g, decodeDispatch s.regs.mode = .ok g ∧ exec g s = .next t := by
  cases hd : decodeDispatch s.regs.mode with
  | ok g => exact ⟨g, rfl, by rw [← runGenerator_eq_exec hd, h]⟩
  | illegal why => unfold runGenerator at h; rw [hd] at h; cases h

/-- A generator never faults. -/
theorem generator_ne_fault {g : Instr} (hg : g.isGenerator = true) (f : Fault) :
    exec g s ≠ .fault f := by
  intro h
  cases g with
  | genRainbow => exact withBrightness_ne_fault (by intro l h; cases h) h
  | genPlasma => exact withBrightness_ne_fault (by intro l h; cases h) h
  | genWave => exact withBrightness_ne_fault (by intro l h; cases h) h
  | genDither | genBreathing | genChase | genWipe | genSparkle | genScanner | genSparkler
  | genFadeIn | genFadeOut => cases h
  | nop | tick | stepMode | stepSpeed | stepBrightness | toggleEnable | wheel | scale | readReg =>
    cases hg

@[simp] theorem dispatchState_cfg (t : Millis) (s : State) : (dispatchState t s).cfg = s.cfg := by
  unfold dispatchState; split <;> rfl

@[simp] theorem dispatchState_px (t : Millis) (s : State) : (dispatchState t s).px = s.px := by
  unfold dispatchState; split <;> rfl

@[simp] theorem dispatchState_io (t : Millis) (s : State) : (dispatchState t s).io = s.io := by
  unfold dispatchState; split <;> rfl

@[simp] theorem dispatchState_draws (t : Millis) (s : State) :
    (dispatchState t s).draws = s.draws := by
  unfold dispatchState; split <;> rfl

/-- Dispatch writes INTERVAL, and DNOW for a Dither frame, and nothing else. -/
@[simp] theorem dispatchState_regs (t : Millis) (s : State) :
    (dispatchState t s).regs = { s.regs with
      interval := baseIntervalOf s
      dnow := if s.regs.mode = 8 then t else s.regs.dnow } := by
  unfold dispatchState; split <;> rfl

/-- What TICK can do (R119): it is gated and changes nothing; or it runs the generator of MODE and,
outside MODE 8, completes the frame. -/
theorem tick_effect (h : execTick s = .next t) :
    (tickGated (now s) s.regs = true ∧ t = s) ∨
    ∃ g u, tickGated (now s) s.regs = false ∧ decodeDispatch s.regs.mode = .ok g ∧
      exec g (dispatchState (now s) s) = .next u ∧
      t = if s.regs.mode = 8 then u else complete (now s) u := by
  unfold execTick at h
  split at h
  · rename_i hg; cases h; exact .inl ⟨hg, rfl⟩
  · rename_i hg
    right
    unfold acceptTick finishTick at h
    split at h
    · rename_i u hu
      obtain ⟨g, hd, he⟩ := runGenerator_eq_next hu
      refine ⟨g, u, by simpa using hg, by simpa using hd, he, ?_⟩
      split at h <;> cases h <;> simp_all
    · cases h
    · cases h

/-- TICK never faults. -/
theorem tick_ne_fault (f : Fault) : execTick s ≠ .fault f := by
  intro h
  unfold execTick at h
  split at h
  · cases h
  · unfold acceptTick finishTick at h
    split at h
    · split at h <;> cases h
    · rename_i f' hf
      cases hd : decodeDispatch (dispatchState (now s) s).regs.mode with
      | ok g =>
        rw [runGenerator_eq_exec hd] at hf
        exact generator_ne_fault (decodeDispatch_isGenerator hd) _ hf
      | illegal why => unfold runGenerator at hf; rw [hd] at hf; cases hf
    · cases h

/-- What SCALE can do (R87). -/
theorem scale_effect {lvl : BitVec 3} {c : Color} (h : execScale lvl c s = .next t) :
    ∃ l, levelOf lvl = some l ∧ t = writeResult (colorWord (scaleColor l c)) s := by
  unfold execScale at h
  split at h
  · cases h; exact ⟨_, ‹_›, rfl⟩
  · cases h

/-- What READ_REG can do (R135). -/
theorem readReg_effect {idx : BitVec 4} (h : execReadReg idx s = .next t) :
    ∃ v, readRegister idx s = some v ∧ t = writeResult v s := by
  unfold execReadReg at h
  split at h
  · cases h; exact ⟨_, ‹_›, rfl⟩
  · cases h

/-- MODE 8 selects GEN_DITHER and no other value does (R92). -/
theorem decodeDispatch_dither {m : BitVec 4} {g : Instr} (h : decodeDispatch m = .ok g) :
    m = 8 ↔ g = .genDither := by
  have hm : m = 8 ↔ m.toNat = 8 := ⟨fun h => by rw [h]; rfl, fun h => BitVec.eq_of_toNat_eq h⟩
  rw [hm]
  unfold decodeDispatch at h
  split at h <;> cases h <;> simp_all

/-- What GEN_DITHER leaves (R108). -/
theorem ditherEffect_eq (h : GeneratorEffect s .genDither t) :
    t = startDither s := by
  cases h with
  | dither => rfl
  | opaqueRun h => cases h

/-- The commands that write RESULT (R24). -/
inductive Responds : Instr → Prop where
  | wheel (p : BitVec 9) : Responds (.wheel p)
  | scale (lvl : BitVec 3) (c : Color) : Responds (.scale lvl c)
  | readReg (idx : BitVec 4) : Responds (.readReg idx)

/-- What an instruction can do, once for all: its next state as an update of the state before. -/
inductive ExecEffect (s : State) : Instr → State → Prop where
  | nop : ExecEffect s .nop s
  | gatedTick (h : tickGated (now s) s.regs = true) : ExecEffect s .tick s
  | ditherTick (hm : s.regs.mode = 8) :
      ExecEffect s .tick (startDither (dispatchState (now s) s))
  | frameTick {g : Instr} {u : State} (hm : s.regs.mode ≠ 8)
      (hd : decodeDispatch s.regs.mode = .ok g) (hu : GeneratorEffect (dispatchState (now s) s) g u) :
      ExecEffect s .tick (complete (now s) u)
  | stepMode :
      ExecEffect s .stepMode { s with
        regs.mode := nextMode s.regs.mode
        regs.animStep := 0
        regs.frameStep := 0 }
  | stepSpeed :
      ExecEffect s .stepSpeed { s with regs.speed := nextSpeed s.cfg.speedMax s.regs.speed }
  | stepBrightness :
      ExecEffect s .stepBrightness { s with regs.brightness := nextBrightness s.regs.brightness }
  | toggleEnable : ExecEffect s .toggleEnable { s with regs := flipStripEn s.regs }
  | response {i : Instr} (hi : Responds i) (v : Word) : ExecEffect s i (writeResult v s)
  | generator {g : Instr} {t : State} (hg : g.isGenerator = true) (h : GeneratorEffect s g t) :
      ExecEffect s g t

/-- The inversion lemma of `exec`. -/
theorem exec_effect {i : Instr} (h : exec i s = .next t) : ExecEffect s i t := by
  cases i with
  | nop => cases h; exact .nop
  | tick =>
    rcases tick_effect h with ⟨hg, rfl⟩ | ⟨g, u, -, hd, hu, rfl⟩
    · exact .gatedTick hg
    · have hu := generator_effect (decodeDispatch_isGenerator hd) hu
      split
      · rename_i hm
        obtain rfl := (decodeDispatch_dither hd).mp hm
        obtain rfl := ditherEffect_eq hu
        exact .ditherTick hm
      · rename_i hm
        exact .frameTick hm hd hu
  | stepMode => cases h; exact .stepMode
  | stepSpeed => cases h; exact .stepSpeed
  | stepBrightness => cases h; exact .stepBrightness
  | toggleEnable => cases h; exact .toggleEnable
  | wheel p => cases h; exact .response (.wheel p) _
  | scale lvl c => obtain ⟨l, -, rfl⟩ := scale_effect h; exact .response (.scale lvl c) _
  | readReg idx => obtain ⟨v, -, rfl⟩ := readReg_effect h; exact .response (.readReg idx) _
  | genRainbow => exact .generator rfl (generator_effect rfl h)
  | genBreathing => exact .generator rfl (generator_effect rfl h)
  | genPlasma => exact .generator rfl (generator_effect rfl h)
  | genChase => exact .generator rfl (generator_effect rfl h)
  | genWipe => exact .generator rfl (generator_effect rfl h)
  | genSparkle => exact .generator rfl (generator_effect rfl h)
  | genScanner => exact .generator rfl (generator_effect rfl h)
  | genWave => exact .generator rfl (generator_effect rfl h)
  | genDither => exact .generator rfl (generator_effect rfl h)
  | genSparkler => exact .generator rfl (generator_effect rfl h)
  | genFadeIn => exact .generator rfl (generator_effect rfl h)
  | genFadeOut => exact .generator rfl (generator_effect rfl h)

/-- A generator's effect on the Pixel Surface: none (the start of Dither), or one frame (R90). -/
theorem generator_px {g : Instr} (h : GeneratorEffect s g t) :
    t.px = s.px ∨ ∃ ps, t.px = s.px.frame s.cfg.n ps := by
  cases h with
  | rainbow ps => exact .inr ⟨ps, rfl⟩
  | plasma ps => exact .inr ⟨ps, rfl⟩
  | wave ps => exact .inr ⟨ps, rfl⟩
  | dither => exact .inl rfl
  | opaqueRun h => exact .inr ⟨_, rfl⟩

/-- An instruction's effect on the Pixel Surface: none, or one frame. -/
theorem exec_px {i : Instr} (h : exec i s = .next t) :
    t.px = s.px ∨ ∃ ps, t.px = s.px.frame s.cfg.n ps := by
  cases exec_effect h with
  | nop => exact .inl rfl
  | gatedTick _ => exact .inl rfl
  | ditherTick _ => exact .inl (dispatchState_px _ _)
  | frameTick _ _ hu => simpa using generator_px hu
  | stepMode => exact .inl rfl
  | stepSpeed => exact .inl rfl
  | stepBrightness => exact .inl rfl
  | toggleEnable => exact .inl rfl
  | response _ v => exact .inl rfl
  | generator _ hg => exact generator_px hg

/-- An instruction leaves configuration and inputs alone. -/
theorem exec_cfg_io {i : Instr} (h : exec i s = .next t) : t.cfg = s.cfg ∧ t.io = s.io := by
  cases exec_effect h with
  | nop => exact ⟨rfl, rfl⟩
  | gatedTick _ => exact ⟨rfl, rfl⟩
  | ditherTick _ => exact ⟨dispatchState_cfg _ _, dispatchState_io _ _⟩
  | frameTick _ _ hu =>
    have hf := generator_frame hu
    exact ⟨by simpa using hf.cfg, by simpa using hf.io⟩
  | stepMode => exact ⟨rfl, rfl⟩
  | stepSpeed => exact ⟨rfl, rfl⟩
  | stepBrightness => exact ⟨rfl, rfl⟩
  | toggleEnable => exact ⟨rfl, rfl⟩
  | response _ v => exact ⟨rfl, rfl⟩
  | generator _ hg => have hf := generator_frame hg; exact ⟨hf.cfg, hf.io⟩

/-- An instruction faults only as the illegal command, which only sets ILL (R140). -/
theorem exec_eq_fault {i : Instr} {f : Fault} (h : exec i s = .fault f) :
    f = .illegal (wordOf i) (markIllegal s) := by
  cases i with
  | scale lvl c =>
    simp only [exec, execScale] at h
    split at h
    · cases h
    · cases h; rfl
  | readReg idx =>
    simp only [exec, execReadReg] at h
    split at h
    · cases h
    · cases h; rfl
  | tick => exact absurd h (tick_ne_fault f)
  | nop => cases h
  | stepMode => cases h
  | stepSpeed => cases h
  | stepBrightness => cases h
  | toggleEnable => cases h
  | wheel p => cases h
  | genRainbow => exact absurd h (generator_ne_fault rfl f)
  | genBreathing => exact absurd h (generator_ne_fault rfl f)
  | genPlasma => exact absurd h (generator_ne_fault rfl f)
  | genChase => exact absurd h (generator_ne_fault rfl f)
  | genWipe => exact absurd h (generator_ne_fault rfl f)
  | genSparkle => exact absurd h (generator_ne_fault rfl f)
  | genScanner => exact absurd h (generator_ne_fault rfl f)
  | genWave => exact absurd h (generator_ne_fault rfl f)
  | genDither => exact absurd h (generator_ne_fault rfl f)
  | genSparkler => exact absurd h (generator_ne_fault rfl f)
  | genFadeIn => exact absurd h (generator_ne_fault rfl f)
  | genFadeOut => exact absurd h (generator_ne_fault rfl f)

/-- What a Dither step can do (R108): DSTEP, DEND or hold. -/
theorem dither_effect (h : ditherStep s = .next t) :
    (dstepEnabled s = true ∧ ∃ l, levelOf s.regs.brightness = some l ∧
      t = subStepDither l s) ∨
    (dendEnabled s = true ∧ t = endDither s) ∨
    (dstepEnabled s = false ∧ dendEnabled s = false ∧ t = s) := by
  unfold ditherStep at h
  split at h
  · rename_i he
    obtain ⟨l, hl, h⟩ := withBrightness_eq_next h
    cases h; exact .inl ⟨he, l, hl, rfl⟩
  · rename_i he
    split at h
    · rename_i hd; cases h; exact .inr (.inl ⟨hd, rfl⟩)
    · rename_i hd; cases h; exact .inr (.inr ⟨by simpa using he, by simpa using hd, rfl⟩)

/-- A Dither step never faults. -/
theorem dither_ne_fault (f : Fault) : ditherStep s ≠ .fault f := by
  intro h
  unfold ditherStep dstep withBrightness at h
  split at h
  · split at h <;> cases h
  · split at h <;> cases h

/-- What a step can do, the sampled state being `envStep s` (R63, R143): reset, a Dither step, idle, or
an accepted word that decodes. -/
theorem step_effect (h : step s = .next t) :
    s.cfg.Valid ∧
    (((envStep s).io.rst = true ∧ t = applyReset (envStep s)) ∨
    ((envStep s).io.rst = false ∧ s.regs.busy = true ∧ ditherStep (envStep s) = .next t) ∨
    ((envStep s).io.rst = false ∧ s.regs.busy = false ∧ (envStep s).io.port = [] ∧
      t = envStep s) ∨
    ∃ w rest i, (envStep s).io.rst = false ∧ s.regs.busy = false ∧
      (envStep s).io.port = w :: rest ∧ decode w = .ok i ∧
      exec i (withPort rest (envStep s)) = .next t) := by
  unfold step at h
  split at h
  · rename_i hv
    refine ⟨hv, ?_⟩
    unfold engineStep at h
    split at h
    · rename_i hr; cases h; exact .inl ⟨hr, rfl⟩
    · rename_i hr
      have hr : (envStep s).io.rst = false := by simpa using hr
      split at h
      · rename_i hb; exact .inr (.inl ⟨hr, by simpa using hb, h⟩)
      · rename_i hb
        have hb : s.regs.busy = false := by simpa using hb
        unfold acceptCommand at h
        split at h
        · rename_i ha; cases h
          exact .inr (.inr (.inl ⟨hr, hb, acceptWord_eq_none.mp ha, rfl⟩))
        · rename_i w s' ha
          obtain ⟨rest, hp, rfl⟩ := acceptWord_eq_some.mp ha
          unfold performWord at h
          split at h
          · rename_i i hd; exact .inr (.inr (.inr ⟨w, rest, i, hr, hb, hp, hd, h⟩))
          · cases h
  · cases h

/-- A step faults only with the word it took off the port, and the state after differs from the
sampled one by the word taken and ILL set (R140). -/
theorem step_fault_effect {f : Fault} (h : step s = .fault f) :
    s.cfg.Valid ∧ (envStep s).io.rst = false ∧ s.regs.busy = false ∧
    ∃ w rest v, (envStep s).io.port = w :: rest ∧
      f = .illegal v (markIllegal (withPort rest (envStep s))) := by
  unfold step at h
  split at h
  · rename_i hv
    refine ⟨hv, ?_⟩
    unfold engineStep at h
    split at h
    · cases h
    · rename_i hr
      refine ⟨by simpa using hr, ?_⟩
      split at h
      · exact absurd h (dither_ne_fault f)
      · rename_i hb
        refine ⟨by simpa using hb, ?_⟩
        unfold acceptCommand at h
        split at h
        · cases h
        · rename_i w s' ha
          obtain ⟨rest, hp, rfl⟩ := acceptWord_eq_some.mp ha
          unfold performWord at h
          split at h
          · exact ⟨w, rest, _, hp, exec_eq_fault h⟩
          · cases h; exact ⟨w, rest, w, hp, rfl⟩
  · cases h

/-- The step of a state whose inputs are sampled, not reset, not BUSY, with a word on the port. -/
theorem step_of_word {w : Word} {rest : List Word} (hv : s.cfg.Valid)
    (hr : (envStep s).io.rst = false) (hb : s.regs.busy = false)
    (hp : (envStep s).io.port = w :: rest) :
    step s = performWord w (withPort rest (envStep s)) := by
  unfold step engineStep acceptCommand
  rw [if_pos hv, if_neg (by simp [hr]), if_neg (by simp [hb]),
    acceptWord_eq_some.mpr ⟨rest, hp, rfl⟩]

/-- The step of a state in a Dither frame. -/
theorem step_of_busy (hv : s.cfg.Valid) (hr : (envStep s).io.rst = false)
    (hb : s.regs.busy = true) : step s = ditherStep (envStep s) := by
  unfold step engineStep
  rw [if_pos hv, if_neg (by simp [hr]), if_pos (by simp [hb])]

end Sys2Proof.Machine
end

