-- ==== Sys2Proof/Laws/PerInstr.lean ====
section
/-! SUPPORT. Per instruction: the encoder gives it the fixed field its row of spec/opcode_table.json has,
OP for a command and the MODE value for a generator, and its kind of encoding (R69, R78, R92). -/

namespace Sys2Proof.Laws

/-- The fixed field of an instruction's row: OP (R69), or the MODE value of a generator (R92). -/
def OpcodeRow.fixedField : Instr → Nat
  | .nop => 0x00
  | .tick => 0x01
  | .stepMode => 0x02
  | .stepSpeed => 0x03
  | .stepBrightness => 0x04
  | .toggleEnable => 0x05
  | .wheel _ => 0x10
  | .scale _ _ => 0x11
  | .readReg _ => 0x20
  | .genRainbow => 0
  | .genBreathing => 1
  | .genPlasma => 2
  | .genChase => 3
  | .genWipe => 4
  | .genSparkle => 5
  | .genScanner => 6
  | .genWave => 7
  | .genDither => 8
  | .genSparkler => 9
  | .genFadeIn => 10
  | .genFadeOut => 11

/-- The encoder gives `i` the fixed field of its row, in the kind of encoding its row has. -/
def OpcodeRow.Statement (i : Instr) : Prop :=
  match encode i with
  | .command w => i.isGenerator = false ∧ (opField w).toNat = OpcodeRow.fixedField i
  | .dispatch m => i.isGenerator = true ∧ m.toNat = OpcodeRow.fixedField i

theorem OpcodeRow.nop : OpcodeRow.Statement .nop := ⟨rfl, rfl⟩

theorem OpcodeRow.tick : OpcodeRow.Statement .tick := ⟨rfl, rfl⟩

theorem OpcodeRow.stepMode : OpcodeRow.Statement .stepMode := ⟨rfl, rfl⟩

theorem OpcodeRow.stepSpeed : OpcodeRow.Statement .stepSpeed := ⟨rfl, rfl⟩

theorem OpcodeRow.stepBrightness : OpcodeRow.Statement .stepBrightness := ⟨rfl, rfl⟩

theorem OpcodeRow.toggleEnable : OpcodeRow.Statement .toggleEnable := ⟨rfl, rfl⟩

theorem OpcodeRow.wheel (p : BitVec 9) : OpcodeRow.Statement (.wheel p) :=
  ⟨rfl, congrArg BitVec.toNat (opField_commandWord _ _)⟩

theorem OpcodeRow.scale (lvl : BitVec 3) (c : Color) : OpcodeRow.Statement (.scale lvl c) :=
  ⟨rfl, congrArg BitVec.toNat (opField_commandWord _ _)⟩

theorem OpcodeRow.readReg (idx : BitVec 4) : OpcodeRow.Statement (.readReg idx) :=
  ⟨rfl, congrArg BitVec.toNat (opField_commandWord _ _)⟩

theorem OpcodeRow.genRainbow : OpcodeRow.Statement .genRainbow := ⟨rfl, rfl⟩

theorem OpcodeRow.genBreathing : OpcodeRow.Statement .genBreathing := ⟨rfl, rfl⟩

theorem OpcodeRow.genPlasma : OpcodeRow.Statement .genPlasma := ⟨rfl, rfl⟩

theorem OpcodeRow.genChase : OpcodeRow.Statement .genChase := ⟨rfl, rfl⟩

theorem OpcodeRow.genWipe : OpcodeRow.Statement .genWipe := ⟨rfl, rfl⟩

theorem OpcodeRow.genSparkle : OpcodeRow.Statement .genSparkle := ⟨rfl, rfl⟩

theorem OpcodeRow.genScanner : OpcodeRow.Statement .genScanner := ⟨rfl, rfl⟩

theorem OpcodeRow.genWave : OpcodeRow.Statement .genWave := ⟨rfl, rfl⟩

theorem OpcodeRow.genDither : OpcodeRow.Statement .genDither := ⟨rfl, rfl⟩

theorem OpcodeRow.genSparkler : OpcodeRow.Statement .genSparkler := ⟨rfl, rfl⟩

theorem OpcodeRow.genFadeIn : OpcodeRow.Statement .genFadeIn := ⟨rfl, rfl⟩

theorem OpcodeRow.genFadeOut : OpcodeRow.Statement .genFadeOut := ⟨rfl, rfl⟩

end Sys2Proof.Laws
end

