-- ==== Sys2Proof/Laws/Sine.lean ====
section
/-! SUPPORT. The fixed-point sine against the real one: `sine64` is within 8 units of 2^-64 of the real
sine on the first quarter turn, and where that leaves no doubt which integer is nearest, `wsin` and
`psin` are within 1/2 of the real value (log 12). -/

namespace Sys2Proof.Machine

open Real

/-- The Horner scheme of `sineFactor` on real numbers. -/
noncomputable def realFactor (x : ℝ) : (k j : ℕ) → ℝ
  | 0, _ => 1
  | k + 1, j => 1 - x * realFactor x k (j + 1) / ((2 * j) * (2 * j + 1))

/-- The real Horner scheme stays in [0, 1]. -/
theorem realFactor_mem {x : ℝ} (h0 : 0 ≤ x) (h6 : x ≤ 6) :
    ∀ k j, 1 ≤ j → 0 ≤ realFactor x k j ∧ realFactor x k j ≤ 1 := by
  intro k
  induction k with
  | zero => intro j _; simp [realFactor]
  | succ k ih =>
    intro j hj
    obtain ⟨a, b⟩ := ih (j + 1) (by omega)
    have hj' : (1 : ℝ) ≤ j := by exact_mod_cast hj
    have hd : (6 : ℝ) ≤ (2 * j) * (2 * j + 1) := by nlinarith
    have h1 : 0 ≤ x * realFactor x k (j + 1) / ((2 * j) * (2 * j + 1)) := by positivity
    have h2 : x * realFactor x k (j + 1) / ((2 * j) * (2 * j + 1)) ≤ 1 := by
      rw [div_le_one (by linarith)]
      nlinarith
    simp only [realFactor]
    constructor <;> linarith

/-- The fixed-point Horner scheme stays at most 1. -/
theorem sineFactor_le (ySq k j : Nat) : sineFactor ySq k j ≤ one64 := by
  cases k with
  | zero => exact le_refl _
  | succ k => unfold sineFactor; exact Nat.sub_le _ _

/-- One floor division, on the reals. -/
theorem div_floor (a b : Nat) (hb : 0 < b) :
    (a : ℝ) / b - 1 ≤ ((a / b : Nat) : ℝ) ∧ ((a / b : Nat) : ℝ) ≤ (a : ℝ) / b := by
  have hb' : (0 : ℝ) < b := by exact_mod_cast hb
  constructor
  · rw [sub_le_iff_le_add, div_le_iff₀ hb']
    have := Nat.lt_div_mul_add (a := a) hb
    have h : (a : ℝ) < (a / b : Nat) * b + b := by exact_mod_cast this
    linarith
  · exact Nat.cast_div_le

/-- The fixed-point Horner scheme is within 3 units of the real one. -/
theorem sineFactor_error {x : ℝ} {ySq : Nat} (h0 : 0 ≤ x) (hx : x ≤ 5 / 2)
    (hl : (ySq : ℝ) ≤ x * one64) (hu : x * one64 ≤ ySq + 1) :
    ∀ k j, 1 ≤ j → |(sineFactor ySq k j : ℝ) - one64 * realFactor x k j| ≤ 3 := by
  intro k
  induction k with
  | zero => intro j _; simp [sineFactor, realFactor]
  | succ k ih =>
    intro j hj
    have hO : (0 : ℝ) < (one64 : ℝ) := by norm_num [one64]
    obtain ⟨a, b⟩ := realFactor_mem h0 (by linarith) k (j + 1) (by omega)
    have e := abs_le.mp (ih (j + 1) (by omega))
    have hF1 : (sineFactor ySq k (j + 1) : ℝ) ≤ one64 := by exact_mod_cast sineFactor_le ySq k (j + 1)
    have hF0 : (0 : ℝ) ≤ (sineFactor ySq k (j + 1) : ℝ) := by positivity
    have hj' : (1 : ℝ) ≤ j := by exact_mod_cast hj
    have hd : (6 : ℝ) ≤ (2 * j) * (2 * j + 1) := by nlinarith
    set D : Nat := one64 * (2 * j) * (2 * j + 1) with hD
    have hOn : 0 < one64 := by decide
    have hDpos : 0 < D := by rw [hD]; positivity
    have hDr : (D : ℝ) = one64 * ((2 * j) * (2 * j + 1)) := by rw [hD]; push_cast; ring
    obtain ⟨f1, f2⟩ := div_floor (ySq * sineFactor ySq k (j + 1)) D hDpos
    have hle : ySq * sineFactor ySq k (j + 1) / D ≤ one64 := by
      have : (ySq * sineFactor ySq k (j + 1) : ℝ) / D ≤ one64 := by
        rw [div_le_iff₀ (by exact_mod_cast hDpos), hDr]
        have : (ySq : ℝ) ≤ 5 / 2 * one64 := by nlinarith
        nlinarith [mul_nonneg hF0 hO.le]
      have h2 : ((ySq * sineFactor ySq k (j + 1) / D : Nat) : ℝ) ≤ one64 := by
        refine le_trans f2 ?_
        push_cast; exact this
      exact_mod_cast h2
    have hs : (sineFactor ySq (k + 1) j : ℝ) =
        one64 - ((ySq * sineFactor ySq k (j + 1) / D : Nat) : ℝ) := by
      rw [sineFactor, Nat.cast_sub hle]
    rw [hs]
    simp only [realFactor]
    set d : ℝ := (2 * j) * (2 * j + 1) with hdd
    set F : ℝ := (sineFactor ySq k (j + 1) : ℝ)
    set R : ℝ := realFactor x k (j + 1)
    set q : ℝ := ((ySq * sineFactor ySq k (j + 1) / D : Nat) : ℝ)
    have hq : (((ySq * sineFactor ySq k (j + 1) : Nat) : ℝ) / D) = (ySq / one64) * F / d := by
      rw [hDr]; push_cast; field_simp; rfl
    rw [hq] at f1 f2
    have hy1 : (ySq : ℝ) / one64 ≤ x := by rw [div_le_iff₀ hO]; exact hl
    have hy2 : x ≤ ySq / one64 + 1 / one64 := by rw [← add_div, le_div_iff₀ hO]; exact hu
    have hy0 : (0 : ℝ) ≤ ySq / one64 := by positivity
    set y : ℝ := ySq / one64
    have hd0 : 0 < d := by linarith
    have k1 : y * F / d - one64 * (x * R / d) ≤ 3 * (5 / 2) / 6 := by
      have : y * F - one64 * (x * R) ≤ 15 / 2 := by
        have : y * F ≤ x * F := mul_le_mul_of_nonneg_right hy1 hF0
        nlinarith
      have h3 : y * F / d - one64 * (x * R / d) = (y * F - one64 * (x * R)) / d := by ring
      rw [h3, div_le_iff₀ hd0]
      nlinarith
    have k2 : one64 * (x * R / d) - y * F / d ≤ (1 + 3 * (5 / 2)) / 6 := by
      have : one64 * (x * R) - y * F ≤ 17 / 2 := by
        have h4 : x * F ≤ (y + 1 / one64) * F := mul_le_mul_of_nonneg_right hy2 hF0
        have h5 : 1 / one64 * F ≤ 1 := by
          rw [one_div, inv_mul_le_iff₀ hO]; linarith
        nlinarith
      have h3 : one64 * (x * R / d) - y * F / d = (one64 * (x * R) - y * F) / d := by ring
      rw [h3, div_le_iff₀ hd0]
      nlinarith
    rw [abs_le]
    constructor <;> nlinarith

/-- The Taylor polynomial of degree 23 against the real sine on the first quarter turn. -/
theorem sine_taylor {y : ℝ} (h0 : 0 ≤ y) (h : y ≤ 158 / 100) :
    |Real.sin y - y * realFactor (y ^ 2) 11 1| ≤ 1 / one64 := by
  have hb := Complex.exp_bound' (x := y * Complex.I) (n := 25) (by
    simp only [norm_mul, Complex.norm_real, Complex.norm_I, mul_one, Real.norm_eq_abs,
      abs_of_nonneg h0]
    norm_num; linarith)
  have him := (Complex.abs_im_le_norm _).trans hb
  have e1 : (Complex.exp (y * Complex.I)).im = Real.sin y := Complex.exp_ofReal_mul_I_im y
  have e2 : (∑ m ∈ Finset.range 25, (y * Complex.I) ^ m / (m.factorial : ℂ)).im = y * realFactor (y ^ 2) 11 1 := by
    have hi : ∀ n : ℕ, (Complex.I ^ (2 * n)).im = 0 ∧ (Complex.I ^ (2 * n + 1)).im = (-1) ^ n := by
      intro n
      have h2 : Complex.I ^ (2 * n) = (((-1) ^ n : ℝ) : ℂ) := by
        rw [pow_mul, Complex.I_sq]; push_cast; rfl
      rw [pow_succ, h2]
      exact ⟨Complex.ofReal_im _, by rw [Complex.im_ofReal_mul, Complex.I_im, mul_one]⟩
    have ht : ∀ m : ℕ, ((y * Complex.I) ^ m / (m.factorial : ℂ)).im =
        y ^ m / m.factorial * (Complex.I ^ m).im := by
      intro m
      rw [← Complex.im_ofReal_mul, mul_pow]
      congr 1
      push_cast
      ring
    rw [Complex.im_sum]
    simp only [ht, Finset.sum_range_succ, Finset.sum_range_zero]
    rw [(hi 0).1, (hi 1).1, (hi 2).1, (hi 3).1, (hi 4).1, (hi 5).1, (hi 6).1, (hi 7).1, (hi 8).1,
      (hi 9).1, (hi 10).1, (hi 11).1, (hi 12).1, (hi 0).2, (hi 1).2, (hi 2).2, (hi 3).2, (hi 4).2,
      (hi 5).2, (hi 6).2, (hi 7).2, (hi 8).2, (hi 9).2, (hi 10).2, (hi 11).2]
    simp only [realFactor, Nat.factorial]
    push_cast
    ring
  rw [Complex.sub_im, e1, e2] at him
  refine him.trans ?_
  simp only [norm_mul, Complex.norm_real, Complex.norm_I, mul_one, Real.norm_eq_abs,
      abs_of_nonneg h0]
  calc (y ^ 25 / (Nat.factorial 25 : ℝ) * 2 : ℝ) ≤ (158 / 100) ^ 25 / (Nat.factorial 25 : ℝ) * 2 := by gcongr
    _ ≤ 1 / one64 := by norm_num [Nat.factorial, one64]


/-- `sine64` is within 8 units of 2^-64 of the real sine on the first quarter turn. -/
theorem sine64_error {y : Nat} (h : y ≤ pi64 / 2 + 1) :
    |(sine64 y : ℝ) / one64 - Real.sin ((y : ℝ) / one64)| ≤ 8 / one64 := by
  have hO : (0 : ℝ) < (one64 : ℝ) := by norm_num [one64]
  set Y : ℝ := (y : ℝ) / one64 with hY
  have hYl : Y ≤ 158 / 100 := by
    rw [hY, div_le_iff₀ hO]
    have : (y : ℝ) ≤ (pi64 / 2 + 1 : Nat) := by exact_mod_cast h
    refine this.trans ?_
    norm_num [pi64, one64]
  have hY0 : 0 ≤ Y := by positivity
  obtain ⟨g1, g2⟩ := div_floor (y * y) one64 (by decide)
  have hyO : Y * one64 = y := by rw [hY]; field_simp
  have hyy : ((y * y : Nat) : ℝ) / one64 = Y ^ 2 * one64 := by
    push_cast; rw [← hyO]; field_simp
  rw [hyy] at g1 g2
  have hx : Y ^ 2 ≤ 5 / 2 := by nlinarith
  have e := sineFactor_error (x := Y ^ 2) (ySq := y * y / one64) (by positivity) hx g2 (by linarith) 11 1 (le_refl _)
  have t := sine_taylor hY0 hYl
  obtain ⟨f1, f2⟩ := div_floor (y * sineFactor (y * y / one64) 11 1) one64 (by decide)
  have hs : (sine64 y : ℝ) = ((y * sineFactor (y * y / one64) 11 1 / one64 : Nat) : ℝ) := rfl
  rw [← hs] at f1 f2
  have hF : ((y * sineFactor (y * y / one64) 11 1 : Nat) : ℝ) / one64 = Y * (sineFactor (y * y / one64) 11 1 : ℝ) := by
    push_cast; rw [hY]; ring
  rw [hF] at f1 f2
  set F : ℝ := (sineFactor (y * y / one64) 11 1 : ℝ)
  set R : ℝ := realFactor (Y ^ 2) 11 1
  set S : ℝ := Real.sin Y
  rw [abs_le] at e t
  have e1 : Y * (F - one64 * R) ≤ 158 / 100 * 3 := by nlinarith
  have e2 : -(158 / 100 * 3) ≤ Y * (F - one64 * R) := by nlinarith
  have t1 : S * one64 - Y * R * one64 ≤ 1 := by
    have := mul_le_mul_of_nonneg_right t.2 hO.le
    rw [div_mul_cancel₀ _ hO.ne'] at this; linarith
  have t2 : -1 ≤ S * one64 - Y * R * one64 := by
    have := mul_le_mul_of_nonneg_right t.1 hO.le
    rw [neg_mul, div_mul_cancel₀ _ hO.ne'] at this; linarith
  have hd : (sine64 y : ℝ) / one64 - S = ((sine64 y : ℝ) - S * one64) / one64 := by field_simp
  rw [hd, abs_div, abs_of_pos hO]
  apply div_le_div_of_nonneg_right _ hO.le
  rw [abs_le]
  constructor <;> nlinarith

/-- The rounded sine stays within the scale. -/
theorem scaledSine_le {y : Nat} (h : y ≤ pi64 / 2 + 1) : scaledSine y ≤ 16384 := by
  have hO : (0 : ℝ) < (one64 : ℝ) := by norm_num [one64]
  have e := (abs_le.mp (sine64_error h)).2
  have h1 : (sine64 y : ℝ) / one64 ≤ 1 + 8 / one64 := by linarith [Real.sin_le_one ((y : ℝ) / one64)]
  rw [div_le_iff₀ hO, add_mul, div_mul_cancel₀ _ hO.ne', one_mul] at h1
  have h2 : sine64 y ≤ one64 + 8 := by exact_mod_cast h1
  unfold scaledSine sineScale
  have : (16384 * sine64 y + one64 / 2) / one64 < 16385 := by
    rw [Nat.div_lt_iff_lt_mul (by decide)]
    unfold one64 at *; omega
  omega

/-- The scale of the fixed-point angles is positive. -/
theorem one64_pos : (0 : ℝ) < (one64 : ℝ) := by norm_num [one64]

/-- `pi64` is π rounded down, within 2 units. -/
theorem pi64_error : (pi64 : ℝ) ≤ π * one64 ∧ π * one64 ≤ pi64 + 2 := by
  have h1 := Real.pi_gt_d20
  have h2 := Real.pi_lt_d20
  unfold pi64 one64
  constructor <;> push_cast <;> nlinarith

/-- The sine moves no faster than its angle. -/
theorem sin_lip (a b : ℝ) : |sin a - sin b| ≤ |a - b| := by
  rw [Real.sin_sub_sin, abs_mul, abs_mul]
  have h1 : |sin ((a - b) / 2)| ≤ |(a - b) / 2| := Real.abs_sin_le_abs
  have h2 : |cos ((a + b) / 2)| ≤ 1 := Real.abs_cos_le_one _
  rw [abs_div] at h1
  simp only [abs_two] at *
  calc 2 * |sin ((a - b) / 2)| * |cos ((a + b) / 2)| ≤ 2 * |sin ((a - b) / 2)| * 1 := by gcongr
    _ ≤ _ := by linarith

/-- `sine64` at an angle near `θ`. -/
theorem sine64_near {y : Nat} (h : y ≤ pi64 / 2 + 1) {θ e : ℝ} (he : |θ - y / one64| ≤ e / one64) :
    |sin θ - (sine64 y : ℝ) / one64| ≤ (e + 8) / one64 := by
  have a := sine64_error h
  have b := (sin_lip θ (y / one64)).trans he
  have : sin θ - (sine64 y : ℝ) / one64 = (sin θ - sin ((y : ℝ) / one64)) - ((sine64 y : ℝ) / one64 - sin ((y : ℝ) / one64)) := by ring
  rw [this, add_div]
  exact (abs_sub _ _).trans (by linarith)

/-- Away from the ties, rounding the fixed-point sine rounds the real one. -/
theorem scaledSine_near {y : Nat} (h : y ≤ pi64 / 2 + 1) {θ e : ℝ} (he : |θ - y / one64| ≤ e / one64)
    (he2 : e ≤ 400) (hm : 2 ^ 23 ≤ (sineScale * sine64 y + one64 / 2) % one64)
    (hm2 : (sineScale * sine64 y + one64 / 2) % one64 + 2 ^ 23 ≤ one64) :
    |16384 * sin θ - scaledSine y| < 1 / 2 := by
  have hO := one64_pos
  have a := abs_le.mp (sine64_near h he)
  have a1 : sin θ * one64 - sine64 y ≤ 408 := by
    have := mul_le_mul_of_nonneg_right a.2 hO.le
    rw [div_mul_cancel₀ _ hO.ne', sub_mul, div_mul_cancel₀ _ hO.ne'] at this; linarith
  have a2 : -408 ≤ sin θ * one64 - sine64 y := by
    have := mul_le_mul_of_nonneg_right a.1 hO.le
    rw [neg_mul, div_mul_cancel₀ _ hO.ne', sub_mul, div_mul_cancel₀ _ hO.ne'] at this; linarith
  have hdiv := Nat.div_add_mod (sineScale * sine64 y + one64 / 2) one64
  have hz : one64 * scaledSine y + (sineScale * sine64 y + one64 / 2) % one64 = sineScale * sine64 y + one64 / 2 := hdiv
  set r := (sineScale * sine64 y + one64 / 2) % one64
  have hzr : (one64 : ℝ) * scaledSine y + r = 16384 * sine64 y + one64 / 2 := by
    have h2 : ((one64 / 2 : Nat) : ℝ) = (one64 : ℝ) / 2 := by norm_num [one64]
    rw [← h2]
    have : sineScale = 16384 := rfl
    rw [this] at hz
    exact_mod_cast hz
  have hm' : (2 ^ 23 : ℝ) ≤ r := by exact_mod_cast hm
  have hm2' : (r : ℝ) + 2 ^ 23 ≤ one64 := by exact_mod_cast hm2
  clear_value r
  generalize (one64 : ℝ) = O at *
  have key : (16384 * sin θ - scaledSine y) * O = 16384 * (sin θ * O - sine64 y) + (r - O / 2) := by
    linear_combination -hzr
  rw [abs_lt]
  constructor
  · rw [← mul_lt_mul_iff_of_pos_right hO, key]; linarith
  · rw [← mul_lt_mul_iff_of_pos_right hO, key]; linarith

/-- A number of half turns changes only the sign. -/
theorem halfTurns_near {q x : Nat} {θ : ℝ} (h : |16384 * sin θ - x| < 1 / 2) :
    |16384 * sin (θ + q * π) - halfTurns q x| < 1 / 2 := by
  rw [Real.sin_add_nat_mul_pi]
  unfold halfTurns
  rcases Nat.even_or_odd q with hq | hq
  · rw [if_pos (Nat.even_iff.mp hq), hq.neg_one_pow]; simpa using h
  · rw [if_neg (by rw [Nat.odd_iff] at hq; omega), hq.neg_one_pow]
    rw [← abs_neg]
    push_cast
    convert h using 2; ring

/-- The fixed-point value at `y` is so far from a rounding tie that no error of `sine64` or of the angle
can change the integer it rounds to. -/
abbrev Margin (y : Nat) : Prop :=
  2 ^ 23 ≤ (sineScale * sine64 y + one64 / 2) % one64 ∧
    (sineScale * sine64 y + one64 / 2) % one64 + 2 ^ 23 ≤ one64

/-- WSIN is within 1/2 of `16384 sin(π k / n)` where the margin holds (R101). -/
theorem wsin_near {n k : Nat} (hn : 1 ≤ n)
    (hm : Margin (pi64 * min (k % n) (n - k % n) / n)) :
    |16384 * sin (π * k / n) - wsin n k| < 1 / 2 := by
  have hO := one64_pos
  have hn' : (0 : ℝ) < n := by exact_mod_cast hn
  have hk := Nat.div_add_mod k n
  have hr := Nat.mod_lt k hn
  have e : π * k / n = π * (k % n : Nat) / n + (k / n : Nat) * π := by
    have : (k : ℝ) = n * (k / n : Nat) + (k % n : Nat) := by exact_mod_cast hk.symm
    rw [this]; field_simp; ring
  rw [e]
  apply halfTurns_near
  set ρ := k % n
  set μ := min ρ (n - ρ) with hμ
  have hsin : sin (π * ρ / n) = sin (π * μ / n) := by
    rcases le_total ρ (n - ρ) with h | h
    · rw [hμ, min_eq_left h]
    · rw [hμ, min_eq_right h, Nat.cast_sub hr.le, ← Real.sin_pi_sub]
      congr 1; field_simp
  rw [hsin]
  obtain ⟨f1, f2⟩ := div_floor (pi64 * μ) n hn
  obtain ⟨p1, p2⟩ := pi64_error
  have hμn : (μ : ℝ) ≤ n := by exact_mod_cast (min_le_left _ _).trans hr.le
  have hμ2 : 2 * μ ≤ n := by omega
  have hμ0 : (0 : ℝ) ≤ μ := by positivity
  refine scaledSine_near (e := 3) ?_ ?_ (by norm_num) hm.1 hm.2
  · have h1 : pi64 * μ / n * 2 ≤ pi64 := by
      have := Nat.div_mul_le_self (pi64 * μ) n
      refine Nat.le_of_mul_le_mul_right ?_ hn
      calc pi64 * μ / n * 2 * n = pi64 * μ / n * n * 2 := by ring
        _ ≤ pi64 * μ * 2 := Nat.mul_le_mul_right _ this
        _ = pi64 * (2 * μ) := by ring
        _ ≤ pi64 * n := Nat.mul_le_mul_left _ hμ2
    omega
  · have h1 : π * μ / n - ((pi64 * μ / n : Nat) : ℝ) / one64 =
        (π * one64 * μ / n - ((pi64 * μ / n : Nat) : ℝ)) / one64 := by field_simp
    rw [h1, abs_div, abs_of_pos hO]
    apply div_le_div_of_nonneg_right _ hO.le
    rw [Nat.cast_mul] at f1 f2
    have g1 : (pi64 : ℝ) * μ / n ≤ π * one64 * μ / n :=
      div_le_div_of_nonneg_right (mul_le_mul_of_nonneg_right p1 hμ0) hn'.le
    have g2 : π * one64 * μ / n ≤ pi64 * μ / n + 2 := by
      rw [div_add' _ _ _ hn'.ne', div_le_div_iff_of_pos_right hn']
      generalize (one64 : ℝ) = O at *
      generalize (pi64 : ℝ) = p at *
      nlinarith
    rw [abs_le]
    constructor <;> linarith

/-- PSIN is within 1/2 of `16384 sin(d / div)` where the margin holds (R95). -/
theorem psin_near {d div : Nat} (hdiv : 1 ≤ div) (hd : d ≤ 571)
    (hm : Margin (min (d * one64 / div % pi64) (pi64 - d * one64 / div % pi64))) :
    |16384 * sin ((d : ℝ) / div) - psin d div| < 1 / 2 := by
  have hO := one64_pos
  have hd' : (0 : ℝ) < div := by exact_mod_cast hdiv
  unfold psin
  set X := d * one64 / div with hX
  have hk := Nat.div_add_mod X pi64
  have hr := Nat.mod_lt X (show 0 < pi64 by decide)
  obtain ⟨f1, f2⟩ := div_floor (d * one64) div hdiv
  rw [← hX] at f1 f2
  rw [Nat.cast_mul] at f1 f2
  set q := X / pi64 with hq
  set ρ := X % pi64 with hρ
  have hq2 : q ≤ 182 := by
    have : X ≤ 571 * one64 := by
      rw [hX]; exact (Nat.div_le_self _ _).trans (Nat.mul_le_mul_right _ hd)
    rw [hq]
    calc X / pi64 ≤ 571 * one64 / pi64 := Nat.div_le_div_right this
      _ ≤ 182 := by decide
  have e : (d : ℝ) / div = ((d : ℝ) / div - q * π) + q * π := by ring
  rw [e]
  apply halfTurns_near
  set a : ℝ := (d : ℝ) / div - q * π with ha
  obtain ⟨p1, p2⟩ := pi64_error
  have hXr : (X : ℝ) = pi64 * q + ρ := by exact_mod_cast hk.symm
  have hq0 : (0 : ℝ) ≤ q := by positivity
  have hq3 : (q : ℝ) ≤ 182 := by exact_mod_cast hq2
  have e1 : a * one64 - ρ ≤ 1 := by
    have : a * one64 = d * one64 / div - q * (π * one64) := by rw [ha]; ring
    nlinarith
  have e2 : -364 ≤ a * one64 - ρ := by
    have : a * one64 = d * one64 / div - q * (π * one64) := by rw [ha]; ring
    nlinarith
  rcases le_total ρ (pi64 - ρ) with h | h
  · rw [min_eq_left h] at hm ⊢
    refine scaledSine_near (e := 400) (by omega) ?_ (by norm_num) hm.1 hm.2
    have h1 : a - (ρ : ℝ) / one64 = (a * one64 - ρ) / one64 := by field_simp
    rw [h1, abs_div, abs_of_pos hO]
    apply div_le_div_of_nonneg_right _ hO.le
    rw [abs_le]; constructor <;> linarith
  · rw [min_eq_right h] at hm ⊢
    rw [← Real.sin_pi_sub]
    refine scaledSine_near (e := 400) (by omega) ?_ (by norm_num) hm.1 hm.2
    have h1 : π - a - ((pi64 - ρ : Nat) : ℝ) / one64 = (π * one64 - a * one64 - (pi64 - ρ)) / one64 := by
      rw [Nat.cast_sub hr.le]; field_simp
    rw [h1, abs_div, abs_of_pos hO]
    apply div_le_div_of_nonneg_right _ hO.le
    rw [abs_le]; constructor <;> linarith

end Sys2Proof.Machine
end

