-- ==== Sys2Proof/Tests/Slice0.lean ====
section
/-! SUPPORT. Tests: the well-formedness checks refuse ill-formed terms; every constructor's encoding,
written out from the spec's tables, decodes to it; at most two small steps per instruction against
spec/95_test_vectors.md; and a state or an operand that meets the hypotheses of every statement. -/

namespace Sys2Proof.Tests

open Sys2Proof.Machine Sys2Proof.Claims

/-! ## Helpers -/

/-- The next state of an outcome, where it is one. -/
def nextOf : Result → Option State
  | .next s => some s
  | .fault _ => none
  | .refused _ => none

/-- The outcome is a next state with a property. -/
def holds (r : Result) (p : State → Bool) : Bool :=
  match nextOf r with
  | some t => p t
  | none => false

theorem of_holds {r : Result} {p : State → Bool} (h : holds r p = true) :
    ∃ t, r = .next t ∧ p t = true := by
  unfold holds nextOf at h
  cases r with
  | next t => exact ⟨t, rfl, h⟩
  | fault f => cases h
  | refused f => cases h

/-- RESULT after an outcome. -/
def resultAfter (r : Result) : Option Word := (nextOf r).map fun t => t.regs.result

/-- The colors of SURF after an outcome, as channel triples. -/
def surfAfter (r : Result) : Option (List (Nat × Nat × Nat)) :=
  (nextOf r).map fun t => t.px.surf.map fun c => (c.r.toNat, c.g.toNat, c.b.toNat)

/-- The parameters of spec/95_test_vectors.md section 3 with `n` pixels. -/
def config (n : Nat) : Config where
  n := n
  speedMax := 3
  baseInterval := [20, 0, 40, 0, 0, 0, 0, 50, 30, 0, 0, 0]
  ditherWait := 10

/-- A state right after reset with `n` black pixels, `color_in` (100,20,60) and these words offered. -/
def state (n : Nat) (port : List Word) : State where
  cfg := config n
  regs := Regs.reset ⟨0, 0, 0, 0, 0, 0, 0, 0⟩
  px :=
    { surf := List.replicate n ⟨0, 0, 0⟩
      strip := List.replicate n ⟨0, 0, 0⟩
      events := [] }
  io :=
    { nowMs := 0
      colorIn := ⟨100, 20, 60⟩
      rst := false
      rstHeld := false
      port := port
      env := [] }
  draws := 1

/-- A state with a gate: INTERVAL 20, the given SPEED, LAST_FRAME and `now_ms`. -/
def gateState (speed : BitVec 8) (last t : Millis) : State :=
  { state 4 [] with
    regs := { (state 4 []).regs with interval := 20, speed := speed, lastFrame := last }
    io.nowMs := t }

/-- A state in mode `m` with the counters given. -/
def modeState (n : Nat) (m : BitVec 4) (a : BitVec 9) (f : BitVec 8) : State :=
  { state n [] with regs := { (state n []).regs with mode := m, animStep := a, frameStep := f } }

/-- A state inside a Dither frame of 5 pixels: sub-step, time of the last one, `now_ms`, word waiting. -/
def ditherState (dsub : BitVec 8) (dt t : Millis) : State :=
  { state 5 [0x01000000] with
    regs := { (state 5 []).regs with
      mode := 8
      busy := true
      dsub := dsub
      dt := dt
      dnow := 7
      ditherColor := ⟨100, 20, 60⟩ }
    io.nowMs := t }

/-- A state in which `rst` is 1. -/
def rstState : State :=
  { state 4 [0x02000000] with io := { (state 4 [0x02000000]).io with rst := true } }

/-! ## Well-formedness -/

theorem test_wf_refuses_scale_level_0 : (Instr.scale 0 ⟨1, 2, 3⟩).wf = false := by decide

theorem test_wf_refuses_scale_level_6 : (Instr.scale 6 ⟨0, 0, 0⟩).wf = false := by decide

theorem test_wf_refuses_scale_level_7 : (Instr.scale 7 ⟨0, 0, 0⟩).wf = false := by decide

theorem test_wf_refuses_readReg_11 : (Instr.readReg 11).wf = false := by decide

theorem test_wf_refuses_readReg_15 : (Instr.readReg 15).wf = false := by decide

theorem test_wf_takes_the_edges :
    (Instr.scale 1 ⟨0, 0, 0⟩).wf = true ∧ (Instr.scale 5 ⟨0, 0, 0⟩).wf = true ∧
      (Instr.readReg 10).wf = true ∧ (Instr.wheel 511).wf = true := by decide

/-- A configuration with no pixel, too many, SPEED_MAX 0 or a short table is no engine (R7, R41). -/
theorem test_config_refuses :
    ¬ (config 0).Valid ∧ ¬ (config 129).Valid ∧ ¬ { config 4 with speedMax := 0 }.Valid ∧
      ¬ { config 4 with baseInterval := [20] }.Valid := by decide

/-! ## Decoding: the words of 95_test_vectors.md 2.1, bit fields written out (R64, R65, R69) -/

theorem test_decode_nop : decode 0b00000000_000000000000000000000000 = .ok .nop := by decide

theorem test_decode_tick : decode 0b00000001_000000000000000000000000 = .ok .tick := by decide

theorem test_decode_stepMode :
    decode 0b00000010_000000000000000000000000 = .ok .stepMode := by decide

theorem test_decode_stepSpeed :
    decode 0b00000011_000000000000000000000000 = .ok .stepSpeed := by decide

theorem test_decode_stepBrightness :
    decode 0b00000100_000000000000000000000000 = .ok .stepBrightness := by decide

theorem test_decode_toggleEnable :
    decode 0b00000101_000000000000000000000000 = .ok .toggleEnable := by decide

theorem test_decode_wheel :
    decode 0b00010000_000000000000000_011000000 = .ok (.wheel 192) := by decide

theorem test_decode_scale :
    decode 0b00010001_011_1111111_1000000_0000001 = .ok (.scale 3 ⟨127, 64, 1⟩) := by decide

theorem test_decode_readReg :
    decode 0b00100000_00000000000000000000_1010 = .ok (.readReg 10) := by decide

/-- The illegal words of 95_test_vectors.md 2.1. -/
theorem test_decode_refuses :
    ([0x00000001, 0x01800000, 0x06000000, 0x0F000000, 0x10000200, 0x11000000, 0x11C00000,
      0x11E00000, 0x12000000, 0x2000000B, 0x2000000F, 0x20000010, 0x21000000, 0xFF000000,
      0xFFFFFFFF] : List Word).all (fun w => (decode w).instr? = none) = true := by decide +kernel

/-- The dispatch codes of R78 and R92. -/
theorem test_decode_dispatch :
    decodeDispatch 0b0000 = .ok .genRainbow ∧ decodeDispatch 0b0001 = .ok .genBreathing ∧
    decodeDispatch 0b0010 = .ok .genPlasma ∧ decodeDispatch 0b0011 = .ok .genChase ∧
    decodeDispatch 0b0100 = .ok .genWipe ∧ decodeDispatch 0b0101 = .ok .genSparkle ∧
    decodeDispatch 0b0110 = .ok .genScanner ∧ decodeDispatch 0b0111 = .ok .genWave ∧
    decodeDispatch 0b1000 = .ok .genDither ∧ decodeDispatch 0b1001 = .ok .genSparkler ∧
    decodeDispatch 0b1010 = .ok .genFadeIn ∧ decodeDispatch 0b1011 = .ok .genFadeOut ∧
    (decodeDispatch 0b1100).instr? = none ∧ (decodeDispatch 0b1111).instr? = none := by decide

/-- The words of 95_test_vectors.md 2.4 and 2.2, assembled (R75). -/
theorem test_assemble :
    assemble "SCALE" [3, 127, 64, 1] = some 0x117FE001 ∧
    assemble "SCALE" [5, 7, 8, 64] = some 0x11A1C440 ∧ assemble "WHEEL" [511] = some 0x100001FF ∧
    assemble "READ_REG" [11] = none ∧ assemble "SCALE" [6, 0, 0, 0] = none := by
  decide +kernel

/-! ## One step each (95_test_vectors.md section 2) -/

/-- 2.5. -/
theorem test_nop : nextOf (exec .nop (gateState 1 2 3)) = some (gateState 1 2 3) := by decide

/-- 2.6: INTERVAL 20, SPEED 3, elapsed 59 of 60. -/
theorem test_tick_gated :
    nextOf (exec .tick (gateState 3 100 159)) = some (gateState 3 100 159) := by decide

/-- 2.6: the time wraps, elapsed 32 of 20. -/
theorem test_tick_accepted_over_the_wrap :
    holds (exec .tick (gateState 1 0xFFFFFFF0 0x10)) (fun t =>
      t.regs.lastFrame == 0x10 && t.regs.animStep == 1 && t.regs.frameStep == 1) = true := by decide

/-- 2.5, S10. -/
theorem test_stepMode_wraps :
    holds (exec .stepMode (modeState 32 11 200 7)) (fun t =>
      t.regs.mode == 0 && t.regs.animStep == 0 && t.regs.frameStep == 0) = true := by decide

/-- 2.5: MODE 7, INTERVAL 50. -/
theorem test_stepMode_keeps_interval :
    holds (exec .stepMode { modeState 32 7 0 0 with
      regs := { (modeState 32 7 0 0).regs with interval := 50 } }) (fun t =>
      t.regs.mode == 8 && t.regs.interval == 50) = true := by decide

/-- 2.5, SPEED_MAX = 3. -/
theorem test_stepSpeed_wraps :
    holds (exec .stepSpeed (gateState 3 0 0)) (fun t => t.regs.speed == 0) = true := by decide

theorem test_stepSpeed_advances :
    holds (exec .stepSpeed (gateState 0 0 0)) (fun t => t.regs.speed == 1) = true := by decide

/-- 2.5: 1 to 2, and 5 to 1. -/
theorem test_stepBrightness_advances :
    holds (exec .stepBrightness (state 4 [])) (fun t => t.regs.brightness == 2) = true := by decide

theorem test_stepBrightness_wraps :
    holds (exec .stepBrightness { state 4 [] with
      regs := { (state 4 []).regs with brightness := 5 } }) (fun t => t.regs.brightness == 1) =
      true := by decide

/-- 2.5: STATUS 0x2 to 0x0. -/
theorem test_toggleEnable :
    holds (exec .toggleEnable (state 4 [])) (fun t =>
      statusWord t.regs == 0 && !(stripEnOut t)) = true := by decide

/-- 2.2. -/
theorem test_wheel_257 : resultAfter (exec (.wheel 257) (state 4 [])) = some 0x0000407E := by decide

theorem test_wheel_511 : resultAfter (exec (.wheel 511) (state 4 [])) = some 0x00003F80 := by decide

/-- 2.4. -/
theorem test_scale_2 :
    resultAfter (exec (.scale 2 ⟨100, 8, 3⟩) (state 4 [])) = some 0x0012C302 := by decide

theorem test_scale_5 :
    resultAfter (exec (.scale 5 ⟨7, 8, 64⟩) (state 4 [])) = some 0x00000088 := by decide

/-- 2.5. -/
theorem test_readReg_status :
    resultAfter (exec (.readReg 7) (state 4 [])) = some 0x00000002 := by decide

/-- 2.5: WAVE_COLOR (100,20,60) is 0x00190A3C. -/
theorem test_readReg_waveColor :
    resultAfter (exec (.readReg 9) { state 4 [] with
      regs := { (state 4 []).regs with waveColor := ⟨100, 20, 60⟩ } }) = some 0x00190A3C := by decide

/-- 2.7: N = 5, ANIM_STEP = 384. -/
theorem test_genRainbow_uneven :
    surfAfter (exec .genRainbow (modeState 5 0 384 0)) =
      some [(127, 0, 0), (51, 76, 0), (0, 102, 25), (0, 25, 102), (51, 0, 76)] := by decide

/-- 2.9: N = 4, FRAME_STEP = 0, ANIM_STEP = 0. -/
theorem test_genPlasma_0 :
    surfAfter (exec .genPlasma (modeState 4 2 0 0)) =
      some [(0, 19, 108), (0, 9, 118), (24, 0, 103), (38, 0, 89)] := by decide +kernel

/-- 2.9: N = 4, FRAME_STEP = 3, ANIM_STEP = 10. -/
theorem test_genPlasma_13 :
    surfAfter (exec .genPlasma (modeState 4 2 10 3)) =
      some [(0, 101, 26), (0, 96, 31), (0, 70, 57), (0, 61, 66)] := by decide +kernel

/-- 2.8: N = 8, drawn color (100,20,60), ANIM_STEP = 0. -/
theorem test_genWave_draws :
    surfAfter (exec .genWave (modeState 8 7 0 0)) =
      some [(100, 20, 60), (111, 61, 86), (120, 96, 108), (125, 119, 122), (127, 127, 127),
        (125, 119, 122), (120, 96, 108), (111, 61, 86)] := by decide +kernel

/-- 2.8: N = 6 and k = 7 at BRIGHTNESS 1, WAVE_COLOR kept. -/
theorem test_genWave_keeps :
    holds (exec .genWave { modeState 6 7 7 0 with
      regs := { (modeState 6 7 7 0).regs with waveColor := ⟨100, 20, 60⟩ }
      io.colorIn := ⟨1, 2, 3⟩ }) (fun t =>
      readPixel t.px.surf 0 == some ⟨50, 10, 30⟩ && t.regs.waveColor == ⟨100, 20, 60⟩) = true := by
  decide +kernel

/-- R108, the start. -/
theorem test_genDither :
    holds (exec .genDither (modeState 5 8 0 0)) (fun t =>
      t.regs.busy && t.regs.ditherColor == ⟨100, 20, 60⟩ && t.px.events == []) = true := by decide

/-- 2.10, N = 5: sub-step 1 writes pixel 4 and flushes, after the wait of 10 ms. -/
theorem test_dstep_writes :
    holds (step (ditherState 1 3 13)) (fun t =>
      t.px.strip == [⟨0, 0, 0⟩, ⟨0, 0, 0⟩, ⟨0, 0, 0⟩, ⟨0, 0, 0⟩, ⟨100, 20, 60⟩] &&
        t.regs.dsub == 2 && t.regs.dt == 13) = true := by decide

/-- 2.10, N = 5: sub-step 3 writes index 6, outside the strip: recorded, nothing stored. -/
theorem test_dstep_clips :
    holds (step (ditherState 3 3 13)) (fun t =>
      t.px.events == [.setPixel 6 ⟨100, 20, 60⟩, .flush] &&
        t.px.strip == List.replicate 5 ⟨0, 0, 0⟩) = true := by decide

/-- The eight opaque generators complete and leave LAST_FRAME and the inputs (R110). -/
theorem test_opaque_generators :
    ∀ g ∈ [Instr.genBreathing, .genChase, .genWipe, .genSparkle, .genScanner, .genSparkler,
      .genFadeIn, .genFadeOut], holds (exec g (gateState 1 5 5)) (fun t =>
        t.regs.lastFrame == 5 && t.io.nowMs == 5 && t.draws == 2) = true := by decide

/-- 2.11: the reset state and 0x06000000. -/
theorem test_illegal_word :
    faultWords (step (state 4 [0x06000000])) = [0x06000000] ∧
      (continueFrom (step (state 4 [0x06000000]))).map (fun t => (statusWord t.regs, t.io.port)) =
        some (0x3, []) := by decide

/-- 2.11: `rst` clears ILL; the word on the port waits (R151). -/
theorem test_rst :
    holds (step { rstState with regs := { rstState.regs with ill := true, mode := 5 } }) (fun t =>
      statusWord t.regs == 0x2 && t.regs.mode == 0 && t.io.port == [0x02000000]) = true := by decide

/-- A table row placed in the reset state is what runs next: NOP, WHEEL 0, and a generator. -/
theorem test_withFetchWord :
    (holds (step (State.reset.withFetchWord 32 0)) fun t => t.regs.animStep == 0) = true ∧
    (holds (step (State.reset.withFetchWord 32 0x10000000)) fun t =>
      t.regs.result == 0x001FC000) = true ∧
    (holds (step (State.reset.withFetchWord 8 2)) fun t =>
      t.regs.mode == 2 && t.regs.animStep == 1) = true := by decide +kernel

/-! ## Witnesses: the hypotheses of each statement are met -/

theorem inv_state4 (port : List Word) : Inv (state 4 port) where
  cfg := show (config 4).Valid by decide
  mode := show (0#4).toNat ≤ 11 by decide
  speed := show (0#8).toNat ≤ (3#8).toNat by decide
  brightness := show 1 ≤ (1#3).toNat ∧ (1#3).toNat ≤ 5 by decide
  anim := show (0#9).toNat ≤ 384 by decide
  frame := show (0#8).toNat ≤ 4 by decide
  dsub := show (0#8).toNat ≤ ditherSubSteps 4 by decide
  idle := fun _ => rfl
  busyMode := fun h => Bool.noConfusion h
  surf := rfl
  strip := rfl

theorem test_witness_encode : (Instr.scale 5 ⟨127, 0, 127⟩).wf = true ∧ (Instr.readReg 10).wf = true ∧
    Instr.genFadeOut.wf = true := by decide

theorem test_witness_decoded_word : decode 0x117FE001 = .ok (.scale 3 ⟨127, 64, 1⟩) := by decide

/-- The fields at their edges: WHEEL 511, SCALE levels 1 and 5, READ_REG 10. -/
theorem test_witness_operands :
    (0x100001FF#32).toNat / 2 ^ 24 = 0x10 ∧ (0x100001FF#32).toNat % 2 ^ 24 < 2 ^ 9 ∧
    (0x11A00000#32).toNat / 2 ^ 21 % 8 = 5 ∧ (0x11C00000#32).toNat / 2 ^ 21 % 8 = 6 ∧
    (0x2000000A#32).toNat % 2 ^ 24 < 2 ^ 4 ∧ (0x2000000B#32).toNat % 16 = 11 := by decide

theorem test_witness_step_performs :
    (state 4 [0x02000000]).cfg.Valid ∧ (envStep (state 4 [0x02000000])).io.rst = false ∧
      (state 4 [0x02000000]).regs.busy = false ∧
      (envStep (state 4 [0x02000000])).io.port = [0x02000000] ∧
      decode 0x02000000 = .ok .stepMode := by decide

theorem test_witness_fetched_row :
    (state 4 []).cfg.Valid ∧ decodeTableWord 32 0x05000000 = some .toggleEnable ∧
      decodeTableWord 8 0 = some .genRainbow ∧ decodeTableWord 8 8 = some .genDither ∧
      decodeTableWord 8 11 = some .genFadeOut ∧ decodeTableWord 4 2 = some .genPlasma := by decide

theorem test_witness_illegal_word :
    (state 4 [0x20000010]).cfg.Valid ∧ (envStep (state 4 [0x20000010])).io.rst = false ∧
      (state 4 [0x20000010]).regs.busy = false ∧
      (envStep (state 4 [0x20000010])).io.port = [0x20000010] ∧
      decode 0x20000010 = .illegal .reservedBits := by decide

theorem test_witness_step_without_reset :
    ∃ s t, (envStep s).io.rst = false ∧ step s = .next t := by
  obtain ⟨t, h, -⟩ := of_holds (r := step (state 4 [0x02000000])) (p := fun _ => true) (by decide)
  exact ⟨_, t, by decide, h⟩

theorem test_witness_step_with_reset :
    ∃ s t, s.cfg.Valid ∧ (envStep s).io.rst = true ∧ step s = .next t := by
  obtain ⟨t, h, -⟩ := of_holds (r := step rstState) (p := fun _ => true) (by decide)
  exact ⟨_, t, by decide, by decide, h⟩

/-- A reset in a Dither frame that has flushed keeps STRIP, and so does a second step of it (R151). -/
theorem test_rst_keeps_the_flushed_strip :
    (holds (step { ditherState 2 3 3 with
      px.strip := List.replicate 5 ⟨9, 9, 9⟩
      io.rst := true }) fun t =>
      !t.regs.busy && t.io.rstHeld && t.px.strip == List.replicate 5 ⟨9, 9, 9⟩) = true ∧
    (holds (step { rstState with io.rstHeld := true }) fun t =>
      t.px.strip == rstState.px.strip) = true := by decide

/-- A reset that the environment applies in the step itself. -/
theorem test_witness_reset_by_a_move :
    (envStep { state 4 [] with io := { (state 4 []).io with
      env := [{ nowMs := 5, colorIn := ⟨0, 0, 0⟩, rst := true, offers := [] }] } }).io.rst = true := by
  decide

theorem test_witness_busy_step :
    ∃ s t, s.regs.busy = true ∧ (envStep s).io.rst = false ∧ step s = .next t ∧ t.regs ≠ s.regs := by
  obtain ⟨t, h, hp⟩ := of_holds (r := step (ditherState 1 3 13))
    (p := fun t => decide (t.regs ≠ (ditherState 1 3 13).regs)) (by decide)
  exact ⟨_, t, by decide, by decide, h, by simpa using hp⟩

theorem test_witness_idle :
    (state 4 []).cfg.Valid ∧ (envStep (state 4 [])).io.rst = false ∧
      (state 4 []).regs.busy = false ∧ (envStep (state 4 [])).io.port = [] := by decide

theorem test_witness_valid_config :
    (config 1).Valid ∧ (config 128).Valid ∧ Config.reference.Valid := by decide

theorem test_witness_invariant : ∃ s, Inv s := ⟨_, inv_state4 []⟩

/-- An illegal command in a state of the invariant. -/
theorem test_witness_invariant_fault :
    Inv (state 4 [0x06000000]) ∧ faultWords (step (state 4 [0x06000000])) = [0x06000000] :=
  ⟨inv_state4 _, by decide⟩

theorem test_witness_bad_configuration :
    (state 0 []).cfg.n = 0 ∧ 128 < (state 129 []).cfg.n := by decide

/-- MODE, SPEED, BRIGHTNESS and STRIP_EN do change. -/
theorem test_witness_settings_change :
    (holds (step (state 4 [0x02000000])) fun t => t.regs.mode != 0) = true ∧
    (holds (step (state 4 [0x03000000])) fun t => t.regs.speed != 0) = true ∧
    (holds (step (state 4 [0x04000000])) fun t => t.regs.brightness != 1) = true ∧
    (holds (step (state 4 [0x05000000])) fun t => !t.regs.stripEn) = true := by decide

theorem test_witness_result_changes :
    (holds (step (state 4 [0x100000C0])) fun t => t.regs.result != 0) = true ∧
    (holds (step (state 4 [0x117FE001])) fun t => t.regs.result != 0) = true ∧
    (holds (step (state 4 [0x20000002])) fun t => t.regs.result != 0) = true := by decide

/-- A TICK emits the events of a frame, and changes LAST_FRAME, the counters and INTERVAL. -/
theorem test_witness_frame_registers_change :
    (holds (step { state 4 [0x01000000] with io := { (state 4 [0x01000000]).io with nowMs := 9 } })
      fun t => t.regs.lastFrame != 0 && t.regs.animStep != 0 && t.regs.frameStep != 0 &&
        t.regs.interval != 0 && t.px.events != []) = true := by decide

/-- STEP_MODE changes ANIM_STEP; the end of a Dither frame changes LAST_FRAME. -/
theorem test_witness_other_frame_register_changes :
    (holds (step { modeState 4 3 9 2 with io := { (state 4 []).io with port := [0x02000000] } })
      fun t => t.regs.animStep != 9) = true ∧
    dendEnabled (ditherState 8 3 13) = true ∧
    (holds (step (ditherState 8 3 13)) fun t => t.regs.lastFrame == 7 && !t.regs.busy) = true := by
  decide

theorem test_witness_mode_local_changes :
    (holds (step { modeState 4 7 0 0 with io := { (state 4 []).io with port := [0x01000000] } })
      fun t => t.regs.waveColor != ⟨0, 0, 0⟩) = true ∧
    (holds (step { modeState 4 8 0 0 with io := { (state 4 []).io with port := [0x01000000] } })
      fun t => t.regs.ditherColor != ⟨0, 0, 0⟩ && t.regs.busy) = true := by decide +kernel

/-- `PRIV[m]` does change when the free frame says so. -/
theorem test_witness_priv_changes (f : OpaqueFrame) (h : f.priv = some 5) :
    readPriv (applyOpaqueFrame .wipe f (state 4 [])).regs.priv .wipe = 5 := by
  simp [applyOpaqueFrame, opaquePriv, h, readPriv, writePriv]

theorem test_witness_mode_edges :
    (11#4).toNat ≤ 11 ∧ nextMode 11 = 0 ∧ nextMode 0 = 1 := by decide

theorem test_witness_register_map :
    (registerMap (state 4 []))[(0#4).toNat]? = some 0 ∧
    (registerMap (state 4 []))[(8#4).toNat]? = some 4 ∧
    (registerMap (state 4 []))[(10#4).toNat]? = some 0 ∧ 11 ≤ (11#4).toNat := by decide

theorem test_witness_scale_levels :
    1 ≤ (1#3).toNat ∧ (5#3).toNat ≤ 5 ∧ (0#3).toNat = 0 ∧ 6 ≤ (6#3).toNat := by decide

/-- The gate at its edge: 59 of 60 is gated, 60 of 60 is not; with INTERVAL or SPEED 0 nothing is. -/
theorem test_witness_gate :
    elapsed 100 159 < (20#16).toNat * (3#8).toNat ∧
    (20#16).toNat * (3#8).toNat ≤ elapsed 100 160 ∧
    (0#16).toNat * (3#8).toNat ≤ elapsed 100 100 ∧
    (20#16).toNat * (1#8).toNat ≤ elapsed 0xFFFFFFF0 0x10 ∧
    elapsed 0xFFFFFFF0 0 < (20#16).toNat * (1#8).toNat ∧
    elapsed 0 16711424 < (65535#16).toNat * (255#8).toNat := by decide

theorem test_witness_accepted_tick :
    (20#16).toNat * (1#8).toNat ≤ elapsed (gateState 1 100 120).regs.lastFrame 120 ∧
    decodeDispatch (gateState 1 100 120).regs.mode = .ok .genRainbow ∧
    (gateState 1 100 120).regs.mode ≠ 8 ∧ (gateState 1 100 120).cfg.baseInterval[0]? = some 20 ∧
    Lit (gateState 1 100 120) := by decide

theorem test_witness_accepted_dither_tick :
    (modeState 5 8 0 0).regs.interval.toNat * (modeState 5 8 0 0).regs.speed.toNat ≤ elapsed 0 0 ∧
    (modeState 5 8 0 0).regs.mode = 8 ∧ (modeState 5 8 0 0).cfg.baseInterval[8]? = some 30 := by
  decide

/-- A state after power-on, and one that `rst` has left, whose STRIP may be anything. -/
theorem test_witness_first_tick :
    (state 32 []).cfg.Valid ∧ AtReset (state 32 []).regs ∧ (state 32 []).px.surf.length = 32 ∧
      (state 32 []).cfg.baseInterval[0]? = some 20 :=
  ⟨by decide, by decide, List.length_replicate, by decide⟩

theorem test_witness_first_tick_after_rst :
    (applyReset rstState).cfg.Valid ∧ AtReset (applyReset rstState).regs ∧
      (applyReset rstState).px.surf.length = 4 ∧
      (applyReset rstState).cfg.baseInterval[0]? = some 20 :=
  ⟨show (config 4).Valid by decide, rfl, rfl, rfl⟩

theorem test_witness_interval_lag :
    ∃ s u, exec .stepMode s = .next u ∧ s.cfg.baseInterval[u.regs.mode.toNat]? = some 0 ∧
      u.regs.mode.toNat ≤ 11 ∧ Lit s ∧
      elapsed s.regs.lastFrame s.io.nowMs < s.regs.interval.toNat * s.regs.speed.toNat := by
  exact ⟨gateState 1 100 119, _, rfl, by decide⟩

theorem test_witness_interval_lag_accepted :
    ∃ s u, exec .stepMode s = .next u ∧ s.cfg.baseInterval[u.regs.mode.toNat]? = some 0 ∧
      u.regs.mode.toNat ≤ 11 ∧ Lit s ∧
      s.regs.interval.toNat * s.regs.speed.toNat ≤ elapsed s.regs.lastFrame s.io.nowMs := by
  exact ⟨gateState 1 100 120, _, rfl, by decide⟩

/-- The edges of the operands of the assembler (R75). -/
theorem test_witness_assembler :
    assemble "WHEEL" [512] = none ∧ assemble "WHEEL" [0] = some 0x10000000 ∧
    assemble "SCALE" [1, 0, 0, 0] = some 0x11200000 ∧ assemble "SCALE" [0, 0, 0, 0] = none ∧
    assemble "SCALE" [5, 128, 0, 0] = none ∧ assemble "READ_REG" [10] = some 0x2000000A := by
  decide +kernel

/-- Words of format Z with ARG zero and not (R71). -/
theorem test_witness_only_zero_arg :
    (0x05000000#32).toNat / 2 ^ 24 = 0x05 ∧ (0x05000000#32).toNat % 2 ^ 24 = 0 ∧
    (0x05FFFFFF#32).toNat / 2 ^ 24 = 0x05 ∧ (0x05FFFFFF#32).toNat % 2 ^ 24 ≠ 0 ∧
    (0x00000001#32).toNat / 2 ^ 24 = 0x00 ∧ (0x00000001#32).toNat % 2 ^ 24 ≠ 0 := by decide

/-- Wheel positions at the band ends (R82, R83). -/
theorem test_witness_wheel :
    wheel 0 = ⟨127, 0, 0⟩ ∧ wheel 127 = wheel 128 ∧ wheel 255 = wheel 256 ∧ wheel 383 = wheel 0 ∧
      wheel 383 = ⟨(wheel 255).b, (wheel 255).r, (wheel 255).g⟩ ∧ wheel 1 ≠ wheel 2 := by decide

/-- The scaler at its largest value, for each form (95_test_vectors.md 2.3). -/
theorem test_witness_scaler :
    scaleValue .mul3Shr2 .l2 127 = 95 ∧ scaleValue .halfPlusQuarter .l2 127 = 94 ∧
      scaleValue .minusQuarter .l2 127 = 96 ∧ scaleValue .mul3Shr2 .l5 127 = 15 := by decide

/-- A TICK that runs with STRIP_EN 0 (R61). -/
theorem test_witness_tick_disabled :
    (holds (exec .tick { gateState 1 100 120 with
      regs := { (gateState 1 100 120).regs with stripEn := false } }) fun t =>
      t.px.events != [] && !t.regs.stripEn) = true := by decide

theorem test_witness_counters :
    animAfter 383 = 384 ∧ animAfter 384 = 0 ∧ frameAfter 32 31 = 32 ∧ frameAfter 32 32 = 0 ∧
      frameAfter 1 0 = 1 ∧ frameAfter 1 1 = 0 := by decide

theorem test_witness_surfaced :
    Lit (state 1 []) ∧ Surfaced (state 1 []) ∧ Lit (state 128 []) ∧ Surfaced (state 128 []) :=
  ⟨by decide, ⟨List.length_replicate, by decide⟩, by decide, ⟨List.length_replicate, by decide⟩⟩

theorem test_witness_rainbow_384 :
    (holds (exec .genRainbow { state 4 [] with
      regs := { (state 4 []).regs with animStep := 384 } }) fun _ => true) = true ∧
    (holds (exec .genRainbow { state 4 [] with
      regs := { (state 4 []).regs with animStep := 0 } }) fun _ => true) = true := by decide

/-- The edges of the plasma's sample points and anchors (R96). -/
theorem test_witness_plasma_bounds :
    distance 512 127 ⟨0, 0, 1⟩ = 527 ∧ distance 512 0 ⟨0, 255, 1⟩ = 571 ∧
      distance 64 64 ⟨64, 64, 8⟩ = 0 := by decide +kernel

/-- The zeros, peaks and troughs of WSIN for N = 8 (95_test_vectors.md 2.8), and N = 6. -/
theorem test_witness_wave_sine :
    8 ∣ 16 ∧ wsin 8 16 = 0 ∧ 2 * 4 = (2 * 0 + 1) * 8 ∧ wsin 8 4 = 16384 ∧
      2 * 12 = (2 * 1 + 1) * 8 ∧ wsin 8 12 = -16384 ∧ wsin 8 9 = -6270 ∧ wsin 6 1 = 8192 := by
  decide +kernel

/-- PSIN values of 95_test_vectors.md 2.9, the one nearest to a tie among them. -/
theorem test_witness_plasma_sine :
    psin 213 8 = 16333 ∧ psin 177 8 = -2186 ∧ psin 202 7 = -9017 ∧ psin 0 7 = 0 := by
  decide +kernel

theorem test_witness_blend :
    blended 100 6270 = 111 ∧ blended 20 (-15137) = 1 ∧ blended 0 (-16384) = 0 ∧
      blended 127 16384 = 127 := by decide

theorem test_witness_dither_bits :
    ditherBits 1 = 0 ∧ ditherBits 2 = 1 ∧ ditherBits 5 = 3 ∧ ditherBits 32 = 5 ∧
      ditherBits 33 = 6 ∧ ditherBits 128 = 7 := by decide

/-- 2.10: the orders for 5 and for 8 pixels. -/
theorem test_witness_reversal :
    (List.range 8).map (reverseBits 3) = [0, 4, 2, 6, 1, 5, 3, 7] ∧ reverseBits 0 0 = 0 := by decide

theorem isDitherBits_5 : IsDitherBits 5 3 :=
  ⟨by decide, fun c hc => by
    by_contra h
    have : 2 ^ c ≤ 2 ^ 2 := Nat.pow_le_pow_right (by decide) (by omega)
    omega⟩

theorem isReversed_1 : IsReversed 3 1 4 := ⟨by decide, by decide⟩

theorem isReversed_0 : IsReversed 3 0 0 := ⟨by decide, by decide⟩

/-- Sub-step 1 with the wait just over, and sub-step 0, which does not wait. -/
theorem test_witness_dither_sub_step :
    (ditherState 1 3 13).cfg.Valid ∧ (envStep (ditherState 1 3 13)).io.rst = false ∧
    (ditherState 1 3 13).regs.busy = true ∧ Lit (ditherState 1 3 13) ∧
    IsDitherBits (ditherState 1 3 13).cfg.n 3 ∧ (ditherState 1 3 13).regs.dsub.toNat < 2 ^ 3 ∧
    IsReversed 3 (ditherState 1 3 13).regs.dsub.toNat 4 ∧
    (ditherState 1 3 13).cfg.ditherWait.toNat ≤ elapsed 3 13 ∧
    IsReversed 3 (ditherState 0 3 3).regs.dsub.toNat 0 ∧ (ditherState 0 3 3).regs.dsub = 0 :=
  ⟨by decide, by decide, by decide, by decide, isDitherBits_5, by decide, isReversed_1, by decide,
    isReversed_0, by decide⟩

theorem test_witness_dither_end :
    IsDitherBits (ditherState 8 3 13).cfg.n 3 ∧ (ditherState 8 3 13).regs.dsub.toNat = 2 ^ 3 ∧
    (ditherState 8 3 13).cfg.ditherWait.toNat ≤ elapsed 3 (envStep (ditherState 8 3 13)).io.nowMs ∧
    (ditherState 8 3 13).cfg.Valid ∧ (envStep (ditherState 8 3 13)).io.rst = false ∧
    (ditherState 8 3 13).regs.busy = true :=
  ⟨isDitherBits_5, by decide, by decide, by decide, by decide, by decide⟩

theorem test_witness_dither_hold :
    (ditherState 1 3 12).cfg.Valid ∧ (envStep (ditherState 1 3 12)).io.rst = false ∧
    (ditherState 1 3 12).regs.busy = true ∧ (ditherState 1 3 12).regs.dsub ≠ 0 ∧
    elapsed 3 (envStep (ditherState 1 3 12)).io.nowMs < (ditherState 1 3 12).cfg.ditherWait.toNat := by
  decide

/-- A frame that has just started; one with sub-steps 0, 4 of 5 pixels done; one with all of them. -/
theorem test_witness_dither_start :
    (ditherState 0 3 3).cfg.Valid ∧ (ditherState 0 3 3).regs.busy = true ∧
      (ditherState 0 3 3).regs.dsub = 0 ∧ Lit (ditherState 0 3 3) ∧ Surfaced (ditherState 0 3 3) ∧
      IsDitherBits (ditherState 0 3 3).cfg.n 3 :=
  ⟨by decide, by decide, by decide, by decide, by decide, isDitherBits_5⟩

theorem test_witness_dither_frame :
    InDither 3 ⟨100, 20, 60⟩ { ditherState 2 3 13 with
      px.surf := [⟨100, 20, 60⟩, ⟨0, 0, 0⟩, ⟨0, 0, 0⟩, ⟨0, 0, 0⟩, ⟨100, 20, 60⟩] } where
  valid := by decide
  busy := by decide
  lit := by decide
  surfaced := by decide
  bits := isDitherBits_5
  bound := by decide
  color := by decide
  pixels := by decide

theorem test_witness_dither_frame_done :
    InDither 3 ⟨100, 20, 60⟩ { ditherState 8 3 13 with
      px.surf := List.replicate 5 ⟨100, 20, 60⟩ } where
  valid := by decide
  busy := by decide
  lit := by decide
  surfaced := by decide
  bits := isDitherBits_5
  bound := by decide
  color := by decide
  pixels := by decide

/-- The events and STRIP of a frame in progress, as the statement's last two clauses take them. -/
theorem test_witness_dither_events :
    (holds (step (ditherState 0 3 3)) fun t =>
      t.px.events == ditherEvents 3 ⟨100, 20, 60⟩ (subStepsDone 3 t) && t.px.strip == t.px.surf) =
      true := by decide

theorem test_witness_opaque :
    (Instr.genWipe, OpaqueMode.wipe) ∈ opaqueGenerators ∧ (state 128 []).cfg.n ≤ 128 := by decide

end Sys2Proof.Tests
end

section
/-! PROOF. The registers (10_state.md): the invariant of the reachable states, and which
commands change which register. -/

namespace Sys2Proof.Machine

open Sys2Proof.Claims

variable {s t u : State} {g i : Instr} {w : Word}

/-! ## The ranges of the register updates (R17 to R19, R25, R26) -/

theorem nextMode_le (m : BitVec 4) : (nextMode m).toNat ≤ 11 := by
  unfold nextMode numberOfModes
  split
  · decide
  · bv_omega

theorem nextSpeed_le (speedMax sp : BitVec 8) : (nextSpeed speedMax sp).toNat ≤ speedMax.toNat := by
  unfold nextSpeed
  split
  · exact Nat.zero_le _
  · bv_omega

theorem nextBrightness_range (b : BitVec 3) :
    1 ≤ (nextBrightness b).toNat ∧ (nextBrightness b).toNat ≤ 5 := by
  unfold nextBrightness numberBrightnessLevels
  split
  · decide
  · bv_omega

theorem advanceAnim_le (a : BitVec 9) : (advanceAnim a).toNat ≤ 384 := by
  rw [toNat_advanceAnim]; split <;> omega

theorem advanceFrame_le {n : Nat} (hn : n ≤ 128) (f : BitVec 8) : (advanceFrame n f).toNat ≤ n := by
  rw [toNat_advanceFrame hn]; split <;> omega

/-- An opaque frame's choice of ANIM_STEP stays in the range (R110). -/
theorem opaqueAnim_le (choice : Option Nat) {a : BitVec 9} (h : a.toNat ≤ 384) :
    (opaqueAnim choice a).toNat ≤ 384 := by
  cases choice with
  | none => exact h
  | some v => simp only [opaqueAnim, animStepMax, BitVec.toNat_ofNat]; omega

/-- An opaque frame's choice of FRAME_STEP stays in the range (R110). -/
theorem opaqueFrameStep_le {n : Nat} (choice : Option Nat) {f : BitVec 8} (h : f.toNat ≤ n) :
    (opaqueFrameStep n choice f).toNat ≤ n := by
  cases choice with
  | none => exact h
  | some v =>
    have hv := Nat.mod_lt v (Nat.succ_pos n)
    exact (Nat.mod_le _ _).trans (Nat.le_of_lt_succ hv)

/-! ## The invariant: each operation keeps it -/

/-- The invariant does not see the inputs or the draw counter. -/
protected theorem Inv.congr (h : Inv s) (hc : t.cfg = s.cfg) (hr : t.regs = s.regs)
    (hp : t.px = s.px) : Inv t := by
  obtain ⟨_, _, _, _, _⟩ := t
  subst hc hr hp
  exact { h with }

protected theorem Inv.envStep (h : Inv s) : Inv (envStep s) :=
  h.congr (envStep_cfg s) (envStep_regs s) (envStep_px s)

protected theorem Inv.withPort (h : Inv s) (rest : List Word) : Inv (withPort rest s) :=
  h.congr rfl rfl rfl

protected theorem Inv.markIllegal (h : Inv s) : Inv (markIllegal s) := { h with }

protected theorem Inv.writeResult (h : Inv s) (v : Word) : Inv (writeResult v s) := { h with }

protected theorem Inv.emitFrame (h : Inv s) (ps : List (PixelIndex × Color)) :
    Inv (emitFrame ps s) :=
  { h with
    surf := (frame_wf h.surf).1
    strip := (frame_wf h.surf).2 }

protected theorem Inv.complete (h : Inv s) (tm : Millis) : Inv (complete tm s) :=
  { h with
    anim := advanceAnim_le _
    frame := advanceFrame_le h.cfg.2.1 _ }

protected theorem Inv.dispatchState (h : Inv s) (tm : Millis) : Inv (dispatchState tm s) := by
  unfold Machine.dispatchState
  split <;> exact { h with }

protected theorem Inv.runOpaque (h : Inv s) (m : OpaqueMode) : Inv (runOpaque m s) :=
  { h with
    anim := opaqueAnim_le _ h.anim
    frame := opaqueFrameStep_le _ h.frame
    surf := (frame_wf h.surf).1
    strip := (frame_wf h.surf).2 }

protected theorem Inv.startDither (h : Inv s) (hm : s.regs.mode = 8) : Inv (startDither s) :=
  { h with
    dsub := Nat.zero_le _
    idle := nofun
    busyMode := fun _ => hm }

/-- DSTEP is enabled only below M, so DSUB does not pass M (R29, R108). -/
protected theorem Inv.subStepDither (h : Inv s) (he : dstepEnabled s = true) (l : Level) :
    Inv (subStepDither l s) := by
  obtain ⟨⟨hb, hd⟩, -⟩ : (s.regs.busy = true ∧ s.regs.dsub.toNat < ditherSubSteps s.cfg.n) ∧ _ := by
    simpa only [dstepEnabled, Bool.and_eq_true, decide_eq_true_eq] using he
  have hdsub : (s.regs.dsub + 1).toNat ≤ ditherSubSteps s.cfg.n := by
    rw [BitVec.toNat_add]; exact (Nat.mod_le _ _).trans hd
  exact { h with
    dsub := hdsub
    idle := fun hi => Bool.noConfusion (hb.symm.trans hi)
    surf := (frame_wf h.surf).1
    strip := (frame_wf h.surf).2 }

protected theorem Inv.endDither (h : Inv s) : Inv (endDither s) :=
  { h.complete s.regs.dnow with
    dsub := Nat.zero_le _
    idle := fun _ => rfl
    busyMode := nofun }

/-- The reset values of the registers are within their ranges (R36). -/
theorem inv_of_regs_reset {p : PrivFile} (hc : s.cfg.Valid) (hr : s.regs = Regs.reset p)
    (hs : Memory.wf s.cfg.n s.px.surf) (ht : Memory.wf s.cfg.n s.px.strip) : Inv s := by
  obtain ⟨cfg, regs, px, io, draws⟩ := s
  subst hr
  exact
    { cfg := hc
      mode := Nat.zero_le _
      speed := Nat.zero_le _
      brightness := ⟨Nat.le_refl 1, Nat.le_add_left 1 4⟩
      anim := Nat.zero_le _
      frame := Nat.zero_le _
      dsub := Nat.zero_le _
      idle := fun _ => rfl
      busyMode := nofun
      surf := hs
      strip := ht }

protected theorem Inv.applyReset (h : Inv s) : Inv (applyReset s) :=
  inv_of_regs_reset h.cfg rfl (applyReset_wf h.strip).1 (applyReset_wf h.strip).2

theorem inv_resetWith {c : Config} (hc : c.Valid) : Inv (State.resetWith c) :=
  inv_of_regs_reset hc rfl (length_drawnColors _ _) (length_drawnColors _ _)

/-- A generator keeps the invariant when it is the one MODE selects, as in a TICK. -/
protected theorem Inv.generator (h : Inv s) (hd : decodeDispatch s.regs.mode = .ok g)
    (hg : GeneratorEffect s g t) : Inv t := by
  cases hg with
  | rainbow ps => exact h.emitFrame ps
  | plasma ps => exact h.emitFrame ps
  | wave ps => exact { h.emitFrame ps with }
  | dither => exact h.startDither ((decodeDispatch_dither hd).mpr rfl)
  | opaqueRun _ => exact h.runOpaque _

/-- A command of an engine that is not BUSY keeps the invariant. -/
protected theorem Inv.exec (h : Inv s) (hb : s.regs.busy = false) (hi : i.isGenerator = false)
    (hx : ExecEffect s i t) : Inv t := by
  cases hx with
  | nop => exact h
  | gatedTick _ => exact h
  | ditherTick hm => exact (h.dispatchState _).startDither (by simpa using hm)
  | frameTick _ hd hu => exact ((h.dispatchState _).generator (by simpa using hd) hu).complete _
  | stepMode =>
    exact { h with
      mode := nextMode_le _
      anim := Nat.zero_le _
      frame := Nat.zero_le _
      busyMode := fun hb' => Bool.noConfusion (hb.symm.trans hb') }
  | stepSpeed => exact { h with speed := nextSpeed_le _ _ }
  | stepBrightness => exact { h with brightness := nextBrightness_range _ }
  | toggleEnable => exact { h with }
  | response _ v => exact h.writeResult v
  | generator hg _ => rw [hi] at hg; cases hg

protected theorem Inv.ditherStep (h : Inv s) (hx : ditherStep s = .next t) : Inv t := by
  rcases dither_effect hx with ⟨he, l, -, rfl⟩ | ⟨-, rfl⟩ | ⟨-, -, rfl⟩
  · exact h.subStepDither he l
  · exact h.endDither
  · exact h

protected theorem Inv.step (h : Inv s) (hx : step s = .next t) : Inv t := by
  obtain ⟨-, ⟨-, rfl⟩ | ⟨-, -, hx⟩ | ⟨-, -, -, rfl⟩ | ⟨w, rest, i, -, hb, -, hd, hx⟩⟩ :=
    step_effect hx
  · exact h.envStep.applyReset
  · exact h.envStep.ditherStep hx
  · exact h.envStep
  · exact (h.envStep.withPort rest).exec (by simpa using hb) (not_generator_of_decode hd)
      (exec_effect hx)

protected theorem Inv.step_fault (h : Inv s) (hx : step s = .fault (.illegal w t)) : Inv t := by
  obtain ⟨-, -, -, _, rest, _, -, hf⟩ := step_fault_effect hx
  cases hf
  exact (h.envStep.withPort rest).markIllegal

/-! ## The words of the commands -/

/-- A word that decodes is the word its instruction encodes to (R69). -/
theorem encode_of_decode (h : decode w = .ok i) : encode i = .command w := by
  have hw : BitVec.ofNat 8 (opField w).toNat = opField w := by simp
  have hr := decode_eq_ok h
  rw [← commandWord_fields w, ← hw]
  generalize (opField w).toNat = op, argField w = arg at hr
  cases hr with
  | nop | tick | stepMode | stepSpeed | stepBrightness | toggleEnable => rfl
  | wheel _ hz => rw [encode, arg_wheel hz]
  | scale _ _ => rw [encode, scaleWord, arg_scale]
  | readReg _ hz _ => rw [encode, readRegWord, arg_readReg hz]

/-- In the next step of `s` the engine accepts a word that decodes to `i`. -/
def AcceptsInstr (s : State) (i : Instr) : Prop := ∃ w, Accepts s w ∧ decode w = .ok i

/-- It accepts the word of that instruction. -/
theorem AcceptsInstr.command {j : Instr} (h : AcceptsInstr s i) (hij : i = j)
    (hw : encode j = .command w) : Accepts s w := by
  obtain ⟨v, ha, hd⟩ := h
  subst hij
  cases (encode_of_decode hd).symm.trans hw
  exact ha

/-- The commands that write RESULT are the ones with these OPs (R24, R69). -/
theorem op_of_responds (hi : Responds i) (hd : decode w = .ok i) :
    w.toNat / 2 ^ 24 ∈ [0x10, 0x11, 0x20] := by
  have hr := decode_eq_ok hd
  rw [← toNat_opField]
  generalize (opField w).toNat = op, argField w = arg at hr
  cases hi <;> cases hr <;> decide

/-! ## What a command leaves unchanged -/

/-- MODE 7 alone selects GEN_WAVE (R92). -/
theorem mode_of_wave {m : BitVec 4} (h : decodeDispatch m = .ok .genWave) : m = 7 := by
  unfold decodeDispatch at h
  split at h <;> cases h
  exact BitVec.eq_of_toNat_eq ‹_›

theorem GeneratorEffect.waveColor (h : GeneratorEffect s g t) :
    t.regs.waveColor = s.regs.waveColor ∨ g = .genWave := by
  cases h with
  | wave ps => exact .inr rfl
  | rainbow _ | plasma _ | dither | opaqueRun _ => exact .inl rfl

theorem GeneratorEffect.ditherColor (h : GeneratorEffect s g t) :
    t.regs.ditherColor = s.regs.ditherColor ∨ g = .genDither := by
  cases h with
  | dither => exact .inr rfl
  | rainbow _ | plasma _ | wave _ | opaqueRun _ => exact .inl rfl

theorem GeneratorEffect.priv (h : GeneratorEffect s g t) (k : OpaqueMode) :
    readPriv t.regs.priv k = readPriv s.regs.priv k ∨ IsOpaque g k := by
  cases h with
  | @opaqueRun _ m hm =>
    by_cases hk : k = m
    · exact .inr (hk ▸ hm)
    · exact .inl (readPriv_opaquePriv_other _ _ hk)
  | rainbow _ | plasma _ | wave _ | dither => exact .inl rfl

/-- The registers that only some commands write, each with the commands that do (R17 to R30). -/
structure CommandFrame (s : State) (i : Instr) (t : State) : Prop where
  mode : t.regs.mode = s.regs.mode ∨ i = .stepMode
  speed : t.regs.speed = s.regs.speed ∨ i = .stepSpeed
  brightness : t.regs.brightness = s.regs.brightness ∨ i = .stepBrightness
  stripEn : t.regs.stripEn = s.regs.stripEn ∨ i = .toggleEnable
  result : t.regs.result = s.regs.result ∨ Responds i
  lastFrame : t.regs.lastFrame = s.regs.lastFrame ∨ i = .tick
  counters : (t.regs.animStep = s.regs.animStep ∧ t.regs.frameStep = s.regs.frameStep) ∨
    i = .tick ∨ i = .stepMode
  dispatch : (t.regs.interval = s.regs.interval ∧ t.regs.dnow = s.regs.dnow) ∨ i = .tick
  waveColor : t.regs.waveColor = s.regs.waveColor ∨ i = .tick ∧ s.regs.mode = 7
  ditherColor : t.regs.ditherColor = s.regs.ditherColor ∨ i = .tick ∧ s.regs.mode = 8
  priv : ∀ k, readPriv t.regs.priv k = readPriv s.regs.priv k ∨
    i = .tick ∧ ∃ g, IsOpaque g k ∧ decodeDispatch s.regs.mode = .ok g

theorem CommandFrame.refl (s : State) (i : Instr) : CommandFrame s i s where
  mode := .inl rfl
  speed := .inl rfl
  brightness := .inl rfl
  stripEn := .inl rfl
  result := .inl rfl
  lastFrame := .inl rfl
  counters := .inl ⟨rfl, rfl⟩
  dispatch := .inl ⟨rfl, rfl⟩
  waveColor := .inl rfl
  ditherColor := .inl rfl
  priv := fun _ => .inl rfl

/-- An accepted TICK that runs generator `g` of MODE and may complete the frame. -/
theorem CommandFrame.of_generator {tm : Millis} (hd : decodeDispatch s.regs.mode = .ok g)
    (hu : GeneratorEffect (dispatchState tm s) g u) : CommandFrame s .tick u := by
  have hf := generator_frame hu
  exact
    { mode := .inl (by simpa using hf.mode)
      speed := .inl (by simpa using hf.speed)
      brightness := .inl (by simpa using hf.brightness)
      stripEn := .inl (by simpa using hf.stripEn)
      result := .inl (by simpa using hf.result)
      lastFrame := .inr rfl
      counters := .inr (.inl rfl)
      dispatch := .inr rfl
      waveColor := by
        rcases hu.waveColor with hk | rfl
        · exact .inl (by simpa using hk)
        · exact .inr ⟨rfl, mode_of_wave hd⟩
      ditherColor := by
        rcases hu.ditherColor with hk | rfl
        · exact .inl (by simpa using hk)
        · exact .inr ⟨rfl, (decodeDispatch_dither hd).mpr rfl⟩
      priv := fun k => by
        rcases hu.priv k with hk | hk
        · exact .inl (by simpa using hk)
        · exact .inr ⟨rfl, g, hk, hd⟩ }

theorem CommandFrame.complete (h : CommandFrame s .tick u) (tm : Millis) :
    CommandFrame s .tick (complete tm u) :=
  { h with
    lastFrame := .inr rfl
    counters := .inr (.inl rfl) }

theorem commandFrame_of_exec (hi : i.isGenerator = false) (h : ExecEffect s i t) :
    CommandFrame s i t := by
  have hk := CommandFrame.refl s i
  cases h with
  | nop => exact hk
  | gatedTick _ => exact hk
  | ditherTick hm => exact .of_generator (by rw [hm]; rfl) .dither
  | frameTick _ hd hu => exact (CommandFrame.of_generator hd hu).complete _
  | stepMode => exact { hk with mode := .inr rfl, counters := .inr (.inr rfl) }
  | stepSpeed => exact { hk with speed := .inr rfl }
  | stepBrightness => exact { hk with brightness := .inr rfl }
  | toggleEnable => exact { hk with stripEn := .inr rfl }
  | response hr _ => exact { hk with result := .inr hr }
  | generator hg _ => rw [hi] at hg; cases hg

/-- What an unreset step does to the registers: nothing (idle, or the hold of a Dither frame), a
Dither sub-step, the end of a Dither frame, or what the accepted command may write. -/
theorem unreset_step_regs (hr : (envStep s).io.rst = false) (h : step s = .next t) :
    t.regs = s.regs ∨
    (∃ l, t = subStepDither l (envStep s)) ∨
    (EndsDither s ∧ t = endDither (envStep s)) ∨
    ∃ i, AcceptsInstr s i ∧ ∃ u, u.regs = s.regs ∧ CommandFrame u i t := by
  obtain ⟨-, ⟨hr', -⟩ | ⟨-, -, hx⟩ | ⟨-, -, -, rfl⟩ | ⟨w, rest, i, -, hb, hp, hd, hx⟩⟩ :=
    step_effect h
  · rw [hr] at hr'; cases hr'
  · rcases dither_effect hx with ⟨-, l, -, rfl⟩ | ⟨he, rfl⟩ | ⟨-, -, rfl⟩
    · exact .inr (.inl ⟨l, rfl⟩)
    · exact .inr (.inr (.inl ⟨⟨hr, he⟩, rfl⟩))
    · exact .inl (envStep_regs s)
  · exact .inl (envStep_regs s)
  · have hf := commandFrame_of_exec (not_generator_of_decode hd) (exec_effect hx)
    exact .inr (.inr 
      (.inr ⟨i, ⟨w, ⟨hr, hb, rest, hp⟩, hd⟩, withPort rest (envStep s), envStep_regs s, hf⟩))

/-- A step with `rst` at 1 is the reset (R151). -/
theorem step_of_reset (hr : (envStep s).io.rst = true) (h : step s = .next t) :
    t = applyReset (envStep s) := by
  obtain ⟨-, ⟨-, rfl⟩ | ⟨hr', -⟩ | ⟨hr', -⟩ | ⟨_, _, _, hr', -⟩⟩ := step_effect h
  · rfl
  all_goals exact Bool.noConfusion (hr.symm.trans hr')

/-- The list of opaque generators is the relation the inversion lemmas speak of (R110). -/
theorem isOpaque_of_mem {m : OpaqueMode} (h : (g, m) ∈ opaqueGenerators) : IsOpaque g m := by
  simp only [opaqueGenerators, List.mem_cons, Prod.mk.injEq, List.not_mem_nil, or_false] at h
  rcases h with ⟨rfl, rfl⟩ | ⟨rfl, rfl⟩ | ⟨rfl, rfl⟩ | ⟨rfl, rfl⟩ | ⟨rfl, rfl⟩ | ⟨rfl, rfl⟩ |
    ⟨rfl, rfl⟩ | ⟨rfl, rfl⟩ <;> constructor

/-- Each `PRIV[m]` belongs to one generator (R30). -/
theorem IsOpaque.unique {g' : Instr} {m : OpaqueMode} (h : IsOpaque g m) (h' : IsOpaque g' m) :
    g = g' := by
  cases h <;> cases h' <;> rfl

/-! ## The register read map -/

/-- A packed color as the word of its channels (R13, R77). -/
theorem packed_eq_colorWord (c : Color) : packed c.r.toNat c.g.toNat c.b.toNat = colorWord c := by
  rw [packed, ← toNat_colorWord, BitVec.ofNat_toNat, BitVec.setWidth_eq]

/-- STATUS as the word of its two flags (R23). -/
theorem ofNat_status (r : Regs) :
    BitVec.ofNat 32 (r.ill.toNat + 2 * r.stripEn.toNat) = statusWord r := by
  rw [← toNat_statusWord, BitVec.ofNat_toNat, BitVec.setWidth_eq]

/-- The read of an index is the entry of the register read map, none past its end (R34). -/
theorem readRegister_eq_registerMap (idx : BitVec 4) (s : State) :
    readRegister idx s = (registerMap s)[idx.toNat]? := by
  simp only [registerMap, packed_eq_colorWord, ofNat_status, BitVec.ofNat_toNat]
  by_cases h : 11 ≤ idx.toNat
  · rw [readRegister_eq_none.mpr h, List.getElem?_eq_none h]
  · unfold readRegister
    interval_cases idx.toNat <;> rfl

end Sys2Proof.Machine

namespace Sys2Proof.Proofs

open Sys2Proof.Machine Sys2Proof.Claims

/-- Settles O16: each outcome of a step keeps the invariant, operation by operation. -/
theorem everyStepKeepsTheInvariant : Obligations.EveryStepKeepsTheInvariant :=
  fun _ h => ⟨fun _ => h.step, fun _ _ => h.step_fault⟩

/-- Settles O20: a Dither step writes no setting, and a command at most its own. -/
theorem settingsChangeOnlyByTheirCommands : Obligations.SettingsChangeOnlyByTheirCommands := by
  intro s t hr h
  rcases unreset_step_regs hr h with hk | ⟨l, rfl⟩ | ⟨-, rfl⟩ | ⟨i, ha, u, hu, hf⟩
  · simp [hk]
  · simp
  · simp
  · rw [← hu]
    exact ⟨fun hc => ha.command (hf.mode.resolve_left hc) rfl,
      fun hc => ha.command (hf.speed.resolve_left hc) rfl,
      fun hc => ha.command (hf.brightness.resolve_left hc) rfl,
      fun hc => ha.command (hf.stripEn.resolve_left hc) rfl⟩

/-- Settles O21: only those three commands write RESULT, and an illegal word only sets ILL. -/
theorem resultChangesOnlyByItsThreeCommands : Obligations.ResultChangesOnlyByItsThreeCommands := by
  refine ⟨fun s t hr h hc => ?_, fun s t w h => ?_, fun _ => rfl, fun _ => rfl⟩
  · rcases unreset_step_regs hr h with hk | ⟨l, rfl⟩ | ⟨-, rfl⟩ | ⟨i, ⟨w, ha, hd⟩, u, hu, hf⟩
    · exact absurd (congrArg Regs.result hk) hc
    · simp at hc
    · simp at hc
    · rw [← hu] at hc
      exact ⟨w, ha, op_of_responds (hf.result.resolve_left hc) hd⟩
  · obtain ⟨-, -, -, _, rest, _, -, hf⟩ := step_fault_effect h
    cases hf
    simp

/-- Settles O24: besides TICK and STEP_MODE only the end of a Dither frame writes LAST_FRAME and the
counters, and nothing but TICK writes INTERVAL and DNOW. -/
theorem frameRegistersChangeOnlyByFrames : Obligations.FrameRegistersChangeOnlyByFrames := by
  intro s t hr h
  rcases unreset_step_regs hr h with hk | ⟨l, rfl⟩ | ⟨he, rfl⟩ | ⟨i, ha, u, hu, hf⟩
  · simp [hk]
  · simp
  · simp [he]
  · rw [← hu]
    refine ⟨fun hc => .inl (ha.command (hf.lastFrame.resolve_left hc) rfl), fun hc => ?_,
      fun hc => ha.command (hf.dispatch.resolve_left (not_and_or.mpr hc)) rfl⟩
    rcases hf.counters.resolve_left (not_and_or.mpr hc) with hi | hi
    · exact .inl (ha.command hi rfl)
    · exact .inr (.inl (ha.command hi rfl))

/-- Settles O25: only the generator that the TICK dispatches writes its own state. -/
theorem modeLocalStateChangesOnlyByItsGenerator :
    Obligations.ModeLocalStateChangesOnlyByItsGenerator := by
  intro s t hr h
  rcases unreset_step_regs hr h with hk | ⟨l, rfl⟩ | ⟨-, rfl⟩ | ⟨i, ha, u, hu, hf⟩
  · simp [hk]
  · simp
  · simp
  · rw [← hu]
    refine ⟨fun hc => ?_, fun hc => ?_, fun g m hgm hc => ?_⟩
    · obtain ⟨hi, hm⟩ := hf.waveColor.resolve_left hc
      exact ⟨ha.command hi rfl, hm⟩
    · obtain ⟨hi, hm⟩ := hf.ditherColor.resolve_left hc
      exact ⟨ha.command hi rfl, hm⟩
    · obtain ⟨hi, g', hg', hd⟩ := (hf.priv m).resolve_left hc
      exact ⟨ha.command hi rfl, hg'.unique (isOpaque_of_mem hgm) ▸ hd⟩

/-- Settles O31: the read map gives the value, and READ_REG writes it to RESULT alone. -/
theorem readRegReturnsTheMappedRegister : Obligations.ReadRegReturnsTheMappedRegister := by
  intro s idx v hv
  rw [← readRegister_eq_registerMap] at hv
  rw [exec, execReadReg, hv]
  rfl

/-- Settles O14: power-on and `rst` both put the registers at the values of R36. -/
theorem resetStateHoldsTheSpecValues : Obligations.ResetStateHoldsTheSpecValues := by
  refine ⟨fun _ => ⟨rfl, rfl⟩, rfl, fun s t hr h => ?_⟩
  obtain rfl := step_of_reset hr h
  rfl

/-- Settles O15: the reset values are in their ranges, and the arrays are drawn with N pixels. -/
theorem resetStateSatisfiesTheInvariant : Obligations.ResetStateSatisfiesTheInvariant :=
  ⟨fun _ => inv_resetWith, inv_resetWith (by decide)⟩

end Sys2Proof.Proofs
end

section
/-! PROOF. The memory (20_memory.md): what a step sends to the Pixel Surface, the strip enable, and
the configurations that are refused. -/

namespace Sys2Proof.Machine

open Sys2Proof.Claims

variable {s t u : State} {g i : Instr}

/-! ## The pixel arrays as the replay of the events (R49 to R51, R54) -/

theorem replay_append (n : Nat) (es es' : List Event) (a : List Color × List Color) :
    replay n (es ++ es') a = replay n es' (replay n es a) :=
  List.foldl_append

/-- Replaying the `SetPixel`s of a list writes its pixels to SURF, one outside the strip being no
write (R49, R50). -/
theorem replay_setPixels (n : Nat) (ps : List (PixelIndex × Color)) (a b : List Color) :
    replay n (ps.map fun x => Event.setPixel x.1 x.2) (a, b) = (writePixels n ps a, b) := by
  induction ps generalizing a with
  | nil => rfl
  | cons x ps ih => exact ih (writePixel n a x.1 x.2)

/-- Replaying the events of a frame gives the arrays the frame leaves. -/
theorem replay_frame (n : Nat) (ps : List (PixelIndex × Color)) (p : PixelSurface) :
    replay n ((ps.map fun x => Event.setPixel x.1 x.2) ++ [.flush]) (p.surf, p.strip) =
      ((p.frame n ps).surf, (p.frame n ps).strip) := by
  rw [replay_append, replay_setPixels, frame_surf, frame_strip]
  rfl

/-! ## A step's effect on the Pixel Surface -/

/-- A Dither step sends one frame, of one pixel, or nothing (R108). -/
theorem dither_px (h : ditherStep s = .next t) :
    t.px = s.px ∨ ∃ ps, t.px = s.px.frame s.cfg.n ps := by
  rcases dither_effect h with ⟨-, l, -, rfl⟩ | ⟨-, rfl⟩ | ⟨-, -, rfl⟩
  · exact .inr ⟨_, subStepDither_px l s⟩
  · exact .inl (endDither_px s)
  · exact .inl rfl

/-- An unreset step sends one whole frame to the Pixel Surface, or nothing (R48, R90). -/
theorem unreset_step_px (hr : (envStep s).io.rst = false) (h : step s = .next t) :
    t.px = s.px ∨ ∃ ps, t.px = s.px.frame s.cfg.n ps := by
  obtain ⟨-, ⟨hr', -⟩ | ⟨-, -, hx⟩ | ⟨-, -, -, rfl⟩ | ⟨w, rest, i, -, -, -, -, hx⟩⟩ :=
    step_effect h
  · exact Bool.noConfusion (hr.symm.trans hr')
  · simpa using dither_px hx
  · exact .inl (envStep_px s)
  · simpa using exec_px hx

/-- A step that faults sends nothing (R140). -/
theorem step_fault_px {w : Word} (h : step s = .fault (.illegal w t)) : t.px = s.px := by
  obtain ⟨-, -, -, _, rest, _, -, hf⟩ := step_fault_effect h
  cases hf
  simp

/-! ## What does not depend on STRIP_EN (R61) -/

/-- The state with STRIP_EN set to `b`. -/
def withStripEn (b : Bool) (s : State) : State := { s with regs.stripEn := b }

theorem exec_toggleEnable (s : State) :
    exec .toggleEnable s = .next (withStripEn (!s.regs.stripEn) s) := rfl

theorem dispatchState_withStripEn (b : Bool) (tm : Millis) (s : State) :
    dispatchState tm (withStripEn b s) = withStripEn b (dispatchState tm s) := by
  rw [dispatchState, dispatchState, apply_ite (withStripEn b)]
  rfl

/-- A generator draws the same frame whatever STRIP_EN is (R61, R90; for an opaque one, log 9). -/
theorem generator_withStripEn (hg : g.isGenerator = true) (h : exec g s = .next t) (b : Bool) :
    exec g (withStripEn b s) = .next (withStripEn b t) := by
  cases g with
  | genRainbow | genPlasma | genWave =>
    obtain ⟨l, hl, h⟩ := withBrightness_eq_next h
    cases h
    exact withBrightness_of_level (s := withStripEn b s) hl
  | genDither | genBreathing | genChase | genWipe | genSparkle | genScanner | genSparkler
  | genFadeIn | genFadeOut => cases h; rfl
  | nop | tick | stepMode | stepSpeed | stepBrightness | toggleEnable | wheel | scale | readReg =>
    cases hg

/-- A gated TICK (R125). -/
theorem execTick_of_gated (h : tickGated (now s) s.regs = true) : execTick s = .next s :=
  if_pos h

/-- A TICK that is not gated and whose generator completes: the converse of `tick_effect` (R119). -/
theorem execTick_of_generator (hg : tickGated (now s) s.regs = false)
    (hd : decodeDispatch s.regs.mode = .ok g) (hu : exec g (dispatchState (now s) s) = .next u) :
    execTick s = .next (if s.regs.mode = 8 then u else complete (now s) u) := by
  have hrun : runGenerator (dispatchState (now s) s) = .next u := by
    rw [runGenerator_eq_exec (by simpa using hd), hu]
  rw [execTick, if_neg (by simp [hg]), acceptTick, hrun, finishTick]
  split <;> rfl

/-- TICK draws and flushes whatever STRIP_EN is (R61). -/
theorem tick_withStripEn (h : execTick s = .next t) (b : Bool) :
    execTick (withStripEn b s) = .next (withStripEn b t) := by
  rcases tick_effect h with ⟨hg, rfl⟩ | ⟨g, u, hg, hd, hu, rfl⟩
  · exact execTick_of_gated (s := withStripEn b _) hg
  · have hu' := generator_withStripEn (decodeDispatch_isGenerator hd) hu b
    rw [← dispatchState_withStripEn] at hu'
    rw [execTick_of_generator (s := withStripEn b s) hg hd hu', apply_ite (withStripEn b)]
    rfl

/-! ## The words of format Z -/

/-- An OP of format Z is legal with ARG zero alone (R65, R71). -/
theorem onlyZeroArg_of_decodeZ {op : Nat}
    (h : ∀ w, (opField w).toNat = op → decode w = decodeZ i (argField w)) : OnlyZeroArg op i := by
  intro w hop
  have harg : argField w = 0 ↔ w.toNat % 2 ^ 24 = 0 := by
    rw [← toNat_argField, BitVec.toNat_eq]; rfl
  rw [h w ((toNat_opField w).trans hop), decodeZ, ← harg, ne_eq, ← harg]
  exact ⟨fun hz => if_pos hz, fun hz => ⟨_, if_neg hz⟩⟩

/-! ## Configurations that do not exist -/

/-- A configuration outside the ranges of R7 is no engine (R41). -/
theorem step_of_invalid (h : ¬ s.cfg.Valid) : step s = .refused .badConfiguration := if_neg h

end Sys2Proof.Machine

namespace Sys2Proof.Proofs

open Sys2Proof.Machine Sys2Proof.Claims

/-- Settles O22: an unreset step sends one frame or nothing, and a frame is the replay of its own
events. -/
theorem pixelArraysFollowTheEvents : Obligations.PixelArraysFollowTheEvents := by
  refine ⟨fun s t hr h => ?_, fun s t w => step_fault_px⟩
  rcases unreset_step_px hr h with hp | ⟨ps, hp⟩
  · exact ⟨[], by simp [hp], by rw [hp]; rfl⟩
  · exact ⟨_, by rw [hp, frame_events], by rw [hp, replay_frame]⟩

/-- Settles O23: a reset emits no event, and every other step sends one frame or nothing. -/
theorem eventsOfAStepEndInTheirOnlyFlush : Obligations.EventsOfAStepEndInTheirOnlyFlush := by
  intro s t h
  cases hr : (envStep s).io.rst with
  | true =>
    obtain rfl := step_of_reset hr h
    exact .inl (by simp)
  | false =>
    rcases unreset_step_px hr h with hp | ⟨ps, hp⟩
    · exact .inl (by rw [hp])
    · exact .inr ⟨ps, by simp [hp], by simp [hp]⟩

/-- Settles O30: TOGGLE_ENABLE negates STRIP_EN, which nothing a TICK does reads. -/
theorem toggleEnableFlipsStripEn : Obligations.ToggleEnableFlipsStripEn := by
  refine ⟨exec_toggleEnable, fun s t u ht hu => ?_, fun s t b h => tick_withStripEn h b,
    onlyZeroArg_of_decodeZ fun w ho => ?_⟩
  · cases ht
    cases hu
    exact ⟨rfl, congrArg (withStripEn · s) (Bool.not_not s.regs.stripEn)⟩
  · rw [decode, ho]
    rfl

/-- Settles O19: each of the four cases breaks a range of R7. -/
theorem configurationOutsideItsRangesIsRefused :
    Obligations.ConfigurationOutsideItsRangesIsRefused := by
  intro s hbad
  refine step_of_invalid ?_
  rintro ⟨hpos, hmax, hspeed, hlen⟩
  rcases hbad with h | h | h | h
  · omega
  · omega
  · rw [h] at hspeed; exact absurd hspeed (by decide)
  · exact h hlen

end Sys2Proof.Proofs
end

section
/-! PROOF. The encoding (30_encoding.md): the decoder against the encoder and the assembler, the
illegal words, and the step that runs an accepted word. -/

namespace Sys2Proof.Machine

variable {s : State} {i : Instr} {w : Word} {op : BitVec 8} {arg : BitVec 24}

/-! ## The fields of ARG (R65 to R68) -/

/-- A field of ARG from its value as a number. -/
theorem argSlice_eq {lsb len : Nat} {v : BitVec len} (h : arg.toNat / 2 ^ lsb % 2 ^ len = v.toNat) :
    arg.extractLsb' lsb len = v :=
  BitVec.eq_of_toNat_eq ((toNat_argSlice ..).trans h)

/-- A field of ARG is the same bits of the whole word. -/
theorem argSlice_argField (w : Word) {lsb len : Nat} (h : lsb + len ≤ 24) :
    (argField w).extractLsb' lsb len = BitVec.ofNat len (w.toNat / 2 ^ lsb % 2 ^ len) := by
  refine argSlice_eq ?_
  rw [toNat_argField, BitVec.toNat_ofNat, Nat.mod_mod]
  obtain ⟨k, hk⟩ := Nat.exists_eq_add_of_le h
  rw [hk, add_assoc, pow_add, Nat.mod_mul_right_div_self, pow_add, Nat.mod_mul_right_mod]

/-- The bits of ARG from `lsb` up are zero exactly when the quotient by `2 ^ lsb` is (R71). -/
theorem argSlice_eq_zero_iff {lsb len : Nat} (h : lsb + len = 24) :
    arg.extractLsb' lsb len = 0 ↔ arg.toNat / 2 ^ lsb = 0 := by
  have hlt : arg.toNat / 2 ^ lsb < 2 ^ len := by
    rw [Nat.div_lt_iff_lt_mul (by positivity), ← pow_add, add_comm, h]
    exact arg.isLt
  rw [← BitVec.toNat_inj, toNat_argSlice, Nat.mod_eq_of_lt hlt]
  simp

/-! ## The decoder takes what the encoder gives (R69) -/

/-- The decoder takes every row of the opcode map, the converse of `decode_eq_ok`. -/
theorem decode_of_row (h : Row i (opField w).toNat (argField w)) : decode w = .ok i := by
  unfold decode
  generalize (opField w).toNat = op, argField w = arg at h
  cases h with
  | nop | tick | stepMode | stepSpeed | stepBrightness | toggleEnable => rfl
  | wheel _ hz => exact if_pos hz
  | scale _ hl => exact if_pos hl
  | readReg _ hz hi => exact (if_pos hz).trans (if_pos hi)

/-- The word built of the fields of a row decodes to its instruction. -/
theorem decode_commandWord (h : Row i op.toNat arg) : decode (commandWord op arg) = .ok i :=
  decode_of_row (by simpa using h)

/-- WHEEL's row, by its operand (R65 format WH). -/
theorem row_wheel (p : BitVec 9) : Row (.wheel p) 0x10 (0#15 ++ p) := by
  have h : Row _ 0x10 (0#15 ++ p) := .wheel _ BitVec.extractLsb'_append_eq_left
  rwa [BitVec.extractLsb'_append_eq_right] at h

/-- SCALE's row, by its operands (R65 format SC). -/
theorem row_scale {lvl : BitVec 3} (hl : levelLegal lvl = true) (c : Color) :
    Row (.scale lvl c) 0x11 (lvl ++ c.r ++ c.g ++ c.b) := by
  have hn := toNat_levelColor lvl c.r c.g c.b
  have hlvl : (lvl ++ c.r ++ c.g ++ c.b).extractLsb' 21 3 = lvl := argSlice_eq (by omega)
  have hr : (lvl ++ c.r ++ c.g ++ c.b).extractLsb' 14 7 = c.r := argSlice_eq (by omega)
  have hg : (lvl ++ c.r ++ c.g ++ c.b).extractLsb' 7 7 = c.g := argSlice_eq (by omega)
  have hb : (lvl ++ c.r ++ c.g ++ c.b).extractLsb' 0 7 = c.b := argSlice_eq (by omega)
  have h := Row.scale (lvl ++ c.r ++ c.g ++ c.b) (hlvl.symm ▸ hl)
  rwa [hlvl, hr, hg, hb] at h

/-- READ_REG's row, by its operand (R65 format RR). -/
theorem row_readReg {idx : BitVec 4} (hi : indexLegal idx = true) :
    Row (.readReg idx) 0x20 (0#20 ++ idx) := by
  have hidx : (0#20 ++ idx).extractLsb' 0 4 = idx := BitVec.extractLsb'_append_eq_right
  have h := Row.readReg (0#20 ++ idx) BitVec.extractLsb'_append_eq_left (hidx.symm ▸ hi)
  rwa [hidx] at h

/-- The decoder undoes the encoder, on commands and on generators. -/
theorem decodeEncoding_encode (hi : i.wf = true) : decodeEncoding (encode i) = .ok i := by
  cases i with
  | nop | tick | stepMode | stepSpeed | stepBrightness | toggleEnable => rfl
  | wheel p => exact decode_commandWord (row_wheel p)
  | scale _ c => exact decode_commandWord (row_scale hi c)
  | readReg _ => exact decode_commandWord (row_readReg hi)
  | genRainbow | genBreathing | genPlasma | genChase | genWipe | genSparkle | genScanner | genWave
  | genDither | genSparkler | genFadeIn | genFadeOut => rfl

/-- The word of a well-formed command decodes to it. -/
theorem decode_wordOf (hi : i.wf = true) (hg : i.isGenerator = false) :
    decode (wordOf i) = .ok i := by
  have h := decodeEncoding_encode hi
  cases i with
  | nop | tick | stepMode | stepSpeed | stepBrightness | toggleEnable | wheel | scale | readReg =>
    exact h
  | genRainbow | genBreathing | genPlasma | genChase | genWipe | genSparkle | genScanner | genWave
  | genDither | genSparkler | genFadeIn | genFadeOut => cases hg

/-- A word that decodes obeys the value constraints of R72. -/
theorem wf_of_decode (h : decode w = .ok i) : i.wf = true := by
  obtain ⟨op, arg, hr, -⟩ := row_of_decode h
  cases hr with
  | nop | tick | stepMode | stepSpeed | stepBrightness | toggleEnable | wheel => rfl
  | scale _ hl => exact hl
  | readReg _ _ hi => exact hi

/-! ## The formats with operands, and what makes a word of each format illegal (R71, R72) -/

theorem decode_eq_decodeWH (h : (opField w).toNat = 0x10) : decode w = decodeWH (argField w) := by
  rw [decode, h]; rfl

theorem decode_eq_decodeSC (h : (opField w).toNat = 0x11) : decode w = decodeSC (argField w) := by
  rw [decode, h]; rfl

theorem decode_eq_decodeRR (h : (opField w).toNat = 0x20) : decode w = decodeRR (argField w) := by
  rw [decode, h]; rfl

/-- A format with one check is illegal exactly when the check fails. -/
theorem ite_illegal_iff {p : Prop} [Decidable p] {r : IllegalReason} :
    (∃ why, (if p then DecodeResult.ok i else .illegal r) = .illegal why) ↔ ¬ p := by
  split <;> simp [*]

theorem decodeZ_illegal_iff : (∃ why, decodeZ i arg = .illegal why) ↔ arg.toNat ≠ 0 :=
  ite_illegal_iff.trans (not_congr BitVec.toNat_eq)

theorem decodeWH_illegal_iff : (∃ why, decodeWH arg = .illegal why) ↔ arg.toNat / 2 ^ 9 ≠ 0 :=
  ite_illegal_iff.trans (not_congr (argSlice_eq_zero_iff rfl))

theorem decodeSC_illegal_iff :
    (∃ why, decodeSC arg = .illegal why) ↔
      ¬ (1 ≤ arg.toNat / 2 ^ 21 % 2 ^ 3 ∧ arg.toNat / 2 ^ 21 % 2 ^ 3 ≤ 5) := by
  rw [← toNat_argSlice]
  exact ite_illegal_iff.trans (not_congr decide_eq_true_iff)

theorem decodeRR_illegal_iff :
    (∃ why, decodeRR arg = .illegal why) ↔
      arg.toNat / 2 ^ 4 ≠ 0 ∨ ¬ arg.toNat / 2 ^ 0 % 2 ^ 4 ≤ 10 := by
  rw [ne_eq, ← argSlice_eq_zero_iff (len := 20) rfl, ← toNat_argSlice, decodeRR]
  split
  · rename_i hz
    exact ite_illegal_iff.trans ((not_congr decide_eq_true_iff).trans
      (or_iff_right (not_not_intro hz)).symm)
  · rename_i hz
    exact ⟨fun _ => .inl hz, fun _ => ⟨_, rfl⟩⟩

/-! ## The assembler gives the encoder's words (R75) -/

/-- An operand in its range is placed, as a number, at its field. -/
theorem operandField_of_le {hi lsb v : Nat} (h : v ≤ hi) (hw : hi * 2 ^ lsb < 2 ^ 32) :
    ∃ f, operandField hi lsb v = some f ∧ f.toNat = v * 2 ^ lsb := by
  have hlt : v * 2 ^ lsb < 2 ^ 32 := (Nat.mul_le_mul_right _ h).trans_lt hw
  refine ⟨_, if_pos h, ?_⟩
  rw [BitVec.toNat_shiftLeft, BitVec.toNat_ofNat, Nat.shiftLeft_eq, Nat.mod_mul_mod,
    Nat.mod_eq_of_lt hlt]

theorem operandField_of_lt {hi lsb v : Nat} (h : hi < v) : operandField hi lsb v = none :=
  if_neg h.not_ge

/-- Fields of a word that have no bit in common add up. -/
theorem toNat_or_field {a b : Word} (k : Nat) (ha : a.toNat % 2 ^ k = 0) (hb : b.toNat < 2 ^ k) :
    (a ||| b).toNat = a.toNat + b.toNat := by
  have h := Nat.shiftLeft_add_eq_or_of_lt hb (a.toNat / 2 ^ k)
  rw [Nat.shiftLeft_eq, Nat.div_mul_cancel (Nat.dvd_of_mod_eq_zero ha)] at h
  rw [BitVec.toNat_or, h]

/-- A command word put together with OR, from the numbers of its OP and its ARG (R64). -/
theorem or_eq_commandWord {base f : Word} (hop : base.toNat = op.toNat * 2 ^ 24)
    (harg : f.toNat = arg.toNat) : base ||| f = commandWord op arg := by
  have hlt := arg.isLt
  apply BitVec.eq_of_toNat_eq
  rw [toNat_or_field 24 (by omega) (by omega), hop, harg, toNat_commandWord]

/-- Zero bits above a field leave its number. -/
theorem toNat_zero_append {n m : Nat} (v : BitVec m) : (0#n ++ v).toNat = v.toNat := by
  simp [BitVec.toNat_append]

/-- A command with one operand in the low bits of its ARG, as `assemble` puts it together. -/
theorem map_operandField {hi v : Nat} {base : Word} (hv : v ≤ hi) (hw : hi * 2 ^ 0 < 2 ^ 32)
    (hop : base.toNat = op.toNat * 2 ^ 24) (harg : v = arg.toNat) :
    (operandField hi 0 v).map (base ||| ·) = some (commandWord op arg) := by
  obtain ⟨f, hf, hn⟩ := operandField_of_le hv hw
  have hf' : f.toNat = arg.toNat := by omega
  rw [hf, Option.map_some, or_eq_commandWord hop hf']

theorem assemble_wheel {p : Nat} (hp : p ≤ 511) :
    assemble "WHEEL" [p] = some (wordOf (.wheel (BitVec.ofNat 9 p))) :=
  map_operandField hp (by decide) rfl (by rw [toNat_zero_append, BitVec.toNat_ofNat]; omega)

theorem assemble_readReg {idx : Nat} (hi : idx ≤ 10) :
    assemble "READ_REG" [idx] = some (wordOf (.readReg (BitVec.ofNat 4 idx))) :=
  map_operandField hi (by decide) rfl (by rw [toNat_zero_append, BitVec.toNat_ofNat]; omega)

theorem assemble_scale {l r g b : Nat} (hl : 1 ≤ l) (hl5 : l ≤ 5) (hr : r ≤ 127) (hg : g ≤ 127)
    (hb : b ≤ 127) :
    assemble "SCALE" [l, r, g, b] = some (wordOf (.scale (BitVec.ofNat 3 l)
      ⟨BitVec.ofNat 7 r, BitVec.ofNat 7 g, BitVec.ofNat 7 b⟩)) := by
  obtain ⟨lf, hlf, hln⟩ := operandField_of_le (lsb := 21) hl5 (by decide)
  obtain ⟨rf, hrf, hrn⟩ := operandField_of_le (lsb := 14) hr (by decide)
  obtain ⟨gf, hgf, hgn⟩ := operandField_of_le (lsb := 7) hg (by decide)
  obtain ⟨bf, hbf, hbn⟩ := operandField_of_le (lsb := 0) hb (by decide)
  have h7 : (gf ||| bf).toNat = gf.toNat + bf.toNat := toNat_or_field 7 (by omega) (by omega)
  have h14 : (rf ||| (gf ||| bf)).toNat = rf.toNat + (gf ||| bf).toNat :=
    toNat_or_field 14 (by omega) (by omega)
  have h21 : (lf ||| (rf ||| (gf ||| bf))).toNat = lf.toNat + (rf ||| (gf ||| bf)).toNat :=
    toNat_or_field 21 (by omega) (by omega)
  have harg : (lf ||| (rf ||| (gf ||| bf))).toNat = (BitVec.ofNat 3 l ++ BitVec.ofNat 7 r ++
      BitVec.ofNat 7 g ++ BitVec.ofNat 7 b).toNat := by
    rw [toNat_levelColor]
    simp only [BitVec.toNat_ofNat]
    omega
  have hword := or_eq_commandWord (base := 0x11000000) (op := 0x11) rfl harg
  simp only [assemble, if_neg (Nat.one_le_iff_ne_zero.mp hl), hlf, hrf, hgf, hbf]
  simp only [← BitVec.or_assoc] at hword
  exact congrArg some hword

theorem assemble_wheel_of_lt {p : Nat} (hp : 511 < p) : assemble "WHEEL" [p] = none := by
  simp [assemble, operandField_of_lt hp]

theorem assemble_readReg_of_lt {idx : Nat} (hi : 10 < idx) : assemble "READ_REG" [idx] = none := by
  simp [assemble, operandField_of_lt hi]

theorem assemble_scale_of_bad {l r g b : Nat}
    (h : l = 0 ∨ 5 < l ∨ 127 < r ∨ 127 < g ∨ 127 < b) : assemble "SCALE" [l, r, g, b] = none := by
  simp only [assemble]
  rcases h with h | h | h | h | h
  · exact if_pos h
  all_goals simp [operandField_of_lt h]

/-! ## The step that runs a table row (log 16) -/

theorem instr?_eq_some {d : DecodeResult} : d.instr? = some i ↔ d = .ok i := by
  cases d <;> simp [DecodeResult.instr?]

/-- A row of 32 bits is placed as the word it decodes as. -/
theorem decode_of_tableWord {n : Nat} (h : decodeTableWord 32 n = some i) :
    decode (fetchedWord 32 n) = .ok i :=
  instr?_eq_some.mp h

/-- A row of any other size is a dispatch code (R78). -/
theorem decodeDispatch_of_tableWord {nbits n : Nat} (hn : nbits ≠ 32)
    (h : decodeTableWord nbits n = some i) : decodeDispatch (BitVec.ofNat 4 n) = .ok i := by
  rw [decodeTableWord, if_neg hn] at h
  split at h
  · exact instr?_eq_some.mp h
  · cases h

theorem fetchRegs_dispatch {nbits n : Nat} (h : nbits ≠ 32) (r : Regs) :
    fetchRegs nbits n r = { r with
      busy := false
      dsub := 0
      mode := BitVec.ofNat 4 n
      interval := 0 } :=
  if_neg h

/-- The placed word is accepted by the very next step (R63). -/
theorem step_withFetchWord {nbits n : Nat} (hv : s.cfg.Valid)
    (hd : decode (fetchedWord nbits n) = .ok i) :
    step (s.withFetchWord nbits n) = exec i (withPort [] (s.withFetchWord nbits n)) := by
  have hb : (s.withFetchWord nbits n).regs.busy = false := by
    change (fetchRegs nbits n s.regs).busy = false
    unfold fetchRegs
    split <;> rfl
  rw [step_of_word (s := s.withFetchWord nbits n) hv rfl hb rfl, performWord, envStep_nil rfl, hd]

/-- With INTERVAL 0 no TICK is gated (R121). -/
theorem execTick_of_interval_zero (h : s.regs.interval = 0) :
    execTick s = acceptTick (now s) s := by
  have hg : ¬ tickGated (now s) s.regs = true := by simp [tickGated, tickThreshold, h]
  exact if_neg hg

end Sys2Proof.Machine

namespace Sys2Proof.Proofs

open Sys2Proof.Machine Sys2Proof.Claims

/-- Settles O2: each command's word has the fields of its row, and MODE_MAP inverts the generators'
codes. -/
theorem encodeThenDecodeIsIdentity : Obligations.EncodeThenDecodeIsIdentity :=
  fun _ => decodeEncoding_encode

/-- Settles O3: a word that decodes is a row of the opcode map, whose fields make the word. -/
theorem decodedWordIsTheEncodingOfItsCommand : Obligations.DecodedWordIsTheEncodingOfItsCommand :=
  fun _ _ h => ⟨encode_of_decode h, wf_of_decode h, not_generator_of_decode h⟩

/-- Settles O4: each OP of the map is illegal as its format says, and every other OP is reserved. -/
theorem illegalWordsAreThoseTheRulesName : Obligations.IllegalWordsAreThoseTheRulesName := by
  intro w
  have hop := toNat_opField w
  have harg := toNat_argField w
  simp only [List.mem_range'_1, List.mem_cons, List.not_mem_nil, or_false]
  unfold decode
  split
  iterate 6 · rw [decodeZ_illegal_iff]; omega
  · rw [decodeWH_illegal_iff]; omega
  · rw [decodeSC_illegal_iff]; omega
  · rw [decodeRR_illegal_iff]; omega
  · simp only [imp_false] at *
    exact iff_of_true ⟨_, rfl⟩ (by omega)

/-- Settles O5: the decoder's fields of ARG are fields of the word, and a word whose level or index is
outside its range is illegal by its format. -/
theorem operandsAreTheFieldsOfTheWord : Obligations.OperandsAreTheFieldsOfTheWord := by
  intro w
  have hop := toNat_opField w
  have harg := toNat_argField w
  refine ⟨fun ho hp => ?_, fun ho => ?_, fun ho hp => ?_⟩
  · have hz : (argField w).extractLsb' 9 15 = 0 := (argSlice_eq_zero_iff rfl).mpr (by omega)
    rw [decode_eq_decodeWH (hop.trans ho), decodeWH, if_pos hz, argSlice_argField w (by decide),
      pow_zero, Nat.div_one]
    rfl
  · rw [decode_eq_decodeSC (hop.trans ho)]
    refine ⟨fun hl => ?_, fun hl => decodeSC_illegal_iff.mpr (by omega)⟩
    have hlegal : levelLegal ((argField w).extractLsb' 21 3) = true :=
      decide_eq_true (by rw [toNat_argSlice]; omega)
    rw [decodeSC, if_pos hlegal]
    iterate 4 rw [argSlice_argField w (by decide)]
    rw [pow_zero, Nat.div_one]
    rfl
  · rw [decode_eq_decodeRR (hop.trans ho)]
    refine ⟨fun hi => ?_, fun hi => decodeRR_illegal_iff.mpr (by omega)⟩
    have hz : (argField w).extractLsb' 4 20 = 0 := (argSlice_eq_zero_iff rfl).mpr (by omega)
    have hlegal : indexLegal ((argField w).extractLsb' 0 4) = true :=
      decide_eq_true (by rw [toNat_argSlice]; omega)
    rw [decodeRR, if_pos hz, if_pos hlegal, argSlice_argField w (by decide), pow_zero, Nat.div_one]
    rfl

/-- Settles O7: a line assembles to the word its command encodes to, which decodes to the command. -/
theorem assembledLinesDecodeToTheirCommands : Obligations.AssembledLinesDecodeToTheirCommands := by
  refine ⟨?_, fun p => ⟨fun hp => ?_, assemble_wheel_of_lt⟩,
    fun l r g b => ⟨fun ⟨hl, hl5, hr, hg, hb⟩ => ?_, assemble_scale_of_bad⟩,
    fun i => ⟨fun hi => ?_, assemble_readReg_of_lt⟩, rfl, fun p => ⟨_, rfl, ?_⟩,
    fun lvl c => ⟨_, rfl, ?_⟩⟩
  · simp only [List.forall_mem_cons]
    exact ⟨⟨_, rfl, rfl⟩, ⟨_, rfl, rfl⟩, ⟨_, rfl, rfl⟩, ⟨_, rfl, rfl⟩, ⟨_, rfl, rfl⟩, ⟨_, rfl, rfl⟩,
      List.forall_mem_nil _⟩
  · exact ⟨_, assemble_wheel hp, decode_wordOf rfl rfl⟩
  · have hlegal : levelLegal (BitVec.ofNat 3 l) = true :=
      decide_eq_true (by rw [BitVec.toNat_ofNat]; omega)
    exact ⟨_, assemble_scale hl hl5 hr hg hb, decode_wordOf hlegal rfl⟩
  · have hlegal : indexLegal (BitVec.ofNat 4 i) = true :=
      decide_eq_true (by rw [BitVec.toNat_ofNat]; omega)
    exact ⟨_, assemble_readReg hi, decode_wordOf hlegal rfl⟩
  · simp only [BitVec.toNat_ofInt]
    omega
  · simp only [unpackColor, BitVec.extractLsb'_toNat, Nat.shiftRight_eq_div_pow, true_and]
    omega

/-- Settles O1: the decoder evaluates on each of the fourteen words. -/
theorem listedWordsDecodeAsTheSpecSays : Obligations.ListedWordsDecodeAsTheSpecSays := by
  unfold Obligations.ListedWordsDecodeAsTheSpecSays
  decide

/-- Settles O8: the accepted word is performed, and performing it runs what it decodes to. -/
theorem stepPerformsTheAcceptedCommand : Obligations.StepPerformsTheAcceptedCommand := by
  intro s w rest i hv hr hb hp hd
  rw [step_of_word hv hr hb hp, performWord, hd]
  rfl

/-- Settles O9: the placed word is accepted next; for a dispatch row it is TICK, and INTERVAL 0 keeps
it from being gated. -/
theorem fetchedTableRowRunsNext : Obligations.FetchedTableRowRunsNext := by
  refine ⟨fun s w i hv hw => step_withFetchWord hv (decode_of_tableWord hw),
    fun s nbits m g hv hn hm => ?_⟩
  have hw : decode (fetchedWord nbits m) = .ok .tick := by rw [fetchedWord, if_neg hn]; rfl
  have hregs := fetchRegs_dispatch (n := m) hn s.regs
  refine ⟨withPort [] (s.withFetchWord nbits m), ?_, ?_, rfl, rfl, rfl, rfl, rfl, hregs⟩
  · exact (congrArg (fun r => decodeDispatch r.mode) hregs).trans (decodeDispatch_of_tableWord hn hm)
  · rw [step_withFetchWord hv hw]
    exact execTick_of_interval_zero (congrArg Regs.interval hregs)

end Sys2Proof.Proofs
end

section
/-! PROOF. The Color Wheel (40_color_wheel.md): the wheel gives each position the color of its hue, and
what the three bands of the hue say about the colors. -/

namespace Sys2Proof.Machine

open Sys2Proof.Claims

variable {m p q : Nat}

/-! ## The hue in its three bands (R79, R82, R83) -/

theorem hue_redBand (h : m < 128) : hue m = (127 - m, m, 0) := if_pos h

theorem hue_greenBand (h : m < 128) : hue (m + 128) = (0, 127 - m, m) := by
  rw [hue, if_neg (by omega), if_pos (by omega), Nat.add_sub_cancel, Nat.add_comm m 128,
    Nat.sub_add_eq]

theorem hue_blueBand (m : Nat) : hue (m + 256) = (m, 0, 127 - m) := by
  rw [hue, if_neg (by omega), if_neg (by omega), Nat.add_sub_cancel, Nat.add_comm m 256,
    Nat.sub_add_eq]

/-- A wheel position is one of the 128 of a band (R79). -/
theorem exists_band (h : q < 384) : ∃ m < 128, q = m ∨ q = m + 128 ∨ q = m + 256 :=
  ⟨q % 128, by omega, by omega⟩

theorem hue_sum (h : q < 384) : (hue q).1 + (hue q).2.1 + (hue q).2.2 = 127 := by
  obtain ⟨m, hm, rfl | rfl | rfl⟩ := exists_band h
  · simp only [hue_redBand hm]; omega
  · simp only [hue_greenBand hm]; omega
  · simp only [hue_blueBand m]; omega

/-- A falling and a rising channel are off at one end of the band each, the third everywhere. -/
theorem count_zero_band (h : m < 128) :
    [127 - m, m, 0].count 0 = if m = 0 ∨ m = 127 then 2 else 1 := by
  obtain rfl | rfl | ⟨h0, h127⟩ : m = 0 ∨ m = 127 ∨ m ≠ 0 ∧ 127 - m ≠ 0 := by omega
  · rfl
  · rfl
  · rw [List.count_cons_of_ne h127, List.count_cons_of_ne h0, if_neg (by omega)]
    rfl

theorem count_rotate_three (x a b c : Nat) : [a, b, c].count x = [b, c, a].count x :=
  (List.perm_append_comm (l₁ := [a]) (l₂ := [b, c])).count_eq x

/-- One channel is off, and a second one at the ends of the bands (R82). -/
theorem hue_count_zero (h : q < 384) :
    [(hue q).1, (hue q).2.1, (hue q).2.2].count 0 =
      if q ∈ [0, 127, 128, 255, 256, 383] then 2 else 1 := by
  simp only [List.mem_cons, List.not_mem_nil, or_false]
  obtain ⟨m, hm, rfl | rfl | rfl⟩ := exists_band h
  · rw [hue_redBand hm, count_zero_band hm]
    exact if_congr (by omega) rfl rfl
  · rw [hue_greenBand hm, count_rotate_three, count_zero_band hm]
    exact if_congr (by omega) rfl rfl
  · rw [hue_blueBand m, count_rotate_three, count_rotate_three, count_zero_band hm]
    exact if_congr (by omega) rfl rfl

/-- A band further, the channels are those of the band before, moved by one (R82). -/
theorem hue_add_band (h : q < 256) : hue (q + 128) = ((hue q).2.2, (hue q).1, (hue q).2.1) := by
  obtain ⟨m, hm, rfl | rfl | rfl⟩ := exists_band (h.trans (by decide))
  · rw [hue_redBand hm, hue_greenBand hm]
  · rw [hue_greenBand hm, hue_blueBand m]
  · omega

/-- Two positions have one hue only where a primary ends one band and starts the next (R83). -/
theorem hue_eq_hue_iff (h : p < q) (hq : q < 384) :
    hue p = hue q ↔ (p = 127 ∧ q = 128) ∨ (p = 255 ∧ q = 256) ∨ (p = 0 ∧ q = 383) := by
  obtain ⟨m, hm, rfl | rfl | rfl⟩ := exists_band (h.trans hq) <;>
  obtain ⟨n, hn, rfl | rfl | rfl⟩ := exists_band hq <;>
  simp only [hue_redBand, hue_greenBand, hue_blueBand, hm, hn, Prod.mk.injEq] <;>
  omega

/-! ## The color of a hue (R13) -/

/-- No channel of a hue is lost in seven bits. -/
theorem toNat_hueColor (h : q < 384) :
    (hueColor q).r.toNat = (hue q).1 ∧ (hueColor q).g.toNat = (hue q).2.1 ∧
      (hueColor q).b.toNat = (hue q).2.2 := by
  have hs := hue_sum h
  simp only [hueColor, BitVec.toNat_ofNat]
  omega

theorem packed_hue (h : q < 384) :
    packed (hue q).1 (hue q).2.1 (hue q).2.2 = colorWord (hueColor q) := by
  obtain ⟨hr, hg, hb⟩ := toNat_hueColor h
  rw [← packed_eq_colorWord, hr, hg, hb]

theorem hueColor_eq_hueColor_iff (hp : p < 384) (hq : q < 384) :
    hueColor p = hueColor q ↔ hue p = hue q := by
  refine ⟨fun h => ?_, fun h => by rw [hueColor, h, hueColor]⟩
  obtain ⟨hr, hg, hb⟩ := toNat_hueColor hp
  obtain ⟨hr', hg', hb'⟩ := toNat_hueColor hq
  rw [h] at hr hg hb
  exact Prod.ext (hr.symm.trans hr') (Prod.ext (hg.symm.trans hg') (hb.symm.trans hb'))

/-- A channel of a color is 0 as a number when it is 0 as a bit vector. -/
theorem count_zero_channels (c : Color) :
    [c.r, c.g, c.b].count 0 = [c.r.toNat, c.g.toNat, c.b.toNat].count 0 :=
  (List.count_map_of_injective [c.r, c.g, c.b] _ BitVec.toNat_injective 0).symm

/-! ## The wheel -/

/-- The wheel gives each position the color of its hue (R79). -/
theorem wheel_eq_hueColor (h : q < 384) : wheel q = hueColor q := by
  unfold wheel
  obtain ⟨m, hm, rfl | rfl | rfl⟩ := exists_band h
  · rw [Nat.div_eq_of_lt hm, Nat.mod_eq_of_lt hm, hueColor, hue_redBand hm]
    rfl
  · rw [show (m + 128) / 128 = 1 by omega, show (m + 128) % 128 = m by omega, hueColor,
      hue_greenBand hm]
    rfl
  · rw [show (m + 256) / 128 = 2 by omega, show (m + 256) % 128 = m by omega, hueColor,
      hue_blueBand m]
    rfl

/-- The command reduces its position mod 384 (R80). -/
theorem wheelCommand_eq_wheel (p : Nat) : wheelCommand p = wheel (p % 384) := by
  unfold wheelCommand
  split
  · rw [Nat.mod_eq_of_lt (by omega)]
  · rfl

theorem wheel_eq_wheel_iff (h : p < q) (hq : q < 384) :
    wheel p = wheel q ↔ (p = 127 ∧ q = 128) ∨ (p = 255 ∧ q = 256) ∨ (p = 0 ∧ q = 383) := by
  have hp := h.trans hq
  rw [wheel_eq_hueColor hp, wheel_eq_hueColor hq, hueColor_eq_hueColor_iff hp hq,
    hue_eq_hue_iff h hq]

/-! ## Counting the colors of the wheel (R83) -/

/-- The positions whose color no position before them has: all but the three repeats (R83). -/
def firstPositions : Finset Nat := Finset.range 384 \ {128, 256, 383}

theorem mem_firstPositions : p ∈ firstPositions ↔ p < 384 ∧ p ≠ 128 ∧ p ≠ 256 ∧ p ≠ 383 := by
  simp [firstPositions]

theorem card_firstPositions : firstPositions.card = 381 := by
  rw [firstPositions, Finset.card_sdiff_of_subset (by decide), Finset.card_range]
  rfl

theorem wheel_ne_of_lt_firstPosition (hq : q ∈ firstPositions) (h : p < q) : wheel p ≠ wheel q := by
  rw [mem_firstPositions] at hq
  rw [Ne, wheel_eq_wheel_iff h hq.1]
  omega

theorem wheel_injOn_firstPositions : Set.InjOn wheel firstPositions := by
  intro p hp q hq heq
  rcases lt_trichotomy p q with h | h | h
  · exact absurd heq (wheel_ne_of_lt_firstPosition hq h)
  · exact h
  · exact absurd heq.symm (wheel_ne_of_lt_firstPosition hp h)

/-- Each position has the color of a first one. -/
theorem exists_firstPosition (h : p < 384) : ∃ q ∈ firstPositions, wheel q = wheel p := by
  by_cases hp : p ∈ firstPositions
  · exact ⟨p, hp, rfl⟩
  obtain rfl | rfl | rfl : p = 128 ∨ p = 256 ∨ p = 383 := by
    rw [mem_firstPositions] at hp
    omega
  · exact ⟨127, mem_firstPositions.mpr (by decide), rfl⟩
  · exact ⟨255, mem_firstPositions.mpr (by decide), rfl⟩
  · exact ⟨0, mem_firstPositions.mpr (by decide), rfl⟩

theorem wheelColors_eq_image :
    ((List.range 384).map wheel).toFinset = firstPositions.image wheel := by
  ext c
  simp only [List.mem_toFinset, List.mem_map, List.mem_range, Finset.mem_image]
  constructor
  · rintro ⟨p, hp, rfl⟩
    exact exists_firstPosition hp
  · rintro ⟨q, hq, rfl⟩
    exact ⟨q, (mem_firstPositions.mp hq).1, rfl⟩

end Sys2Proof.Machine

namespace Sys2Proof.Proofs

open Sys2Proof.Machine Sys2Proof.Claims

/-- Settles O33: the looked-up color is that of the reduced position's hue, and RESULT is all that
the command writes. -/
theorem wheelCommandGivesTheBandColor : Obligations.WheelCommandGivesTheBandColor := by
  intro p s
  have hq : p.toNat % 384 < 384 := Nat.mod_lt _ (by decide)
  rw [packed_hue hq, ← wheel_eq_hueColor hq, ← wheelCommand_eq_wheel]
  rfl

/-- Settles O35: equal colors are equal hues, and the first positions, which have all the colors and
no color twice, are 381. -/
theorem wheelRepeatsOnlyThePrimaries : Obligations.WheelRepeatsOnlyThePrimaries := by
  refine ⟨fun p q => wheel_eq_wheel_iff, ?_⟩
  rw [← List.card_toFinset, wheelColors_eq_image,
    Finset.card_image_of_injOn wheel_injOn_firstPositions, card_firstPositions]

/-- Settles O34: the sum, the count and the rotation are those of the hue, whose channels the color
keeps. -/
theorem wheelChannelsSumTo127AndRotate : Obligations.WheelChannelsSumTo127AndRotate := by
  refine ⟨fun p hp => ?_, fun p hp => ?_⟩
  · obtain ⟨hr, hg, hb⟩ := toNat_hueColor hp
    rw [wheel_eq_hueColor hp, count_zero_channels, hr, hg, hb]
    exact ⟨hue_sum hp, hue_count_zero hp⟩
  · rw [wheel_eq_hueColor (by omega), wheel_eq_hueColor (by omega), hueColor, hue_add_band hp,
      hueColor]

end Sys2Proof.Proofs
end

section
/-! PROOF. The Brightness Scaler (41_brightness_scaler.md): its order in the level and in the value,
the scaler by its level's number, and the SCALE command. -/

namespace Sys2Proof.Machine

open Sys2Proof.Claims

variable {s : State} {form : Scale2Form} {l k : Level} {v w : Nat} {lvl : BitVec 3}

/-! ## The order of the scaler (R86, R88) -/

/-- Each level-2 formula lies between level 3 and the value (R86). -/
theorem scale2_between (form : Scale2Form) (v : Nat) :
    v / 2 ≤ scale2 form v ∧ scale2 form v ≤ v := by
  cases form <;> simp only [scale2, Nat.shiftRight_eq_div_pow] <;> omega

theorem scale2_le_scale2 (form : Scale2Form) (h : v ≤ w) : scale2 form v ≤ scale2 form w := by
  cases form <;> simp only [scale2, Nat.shiftRight_eq_div_pow] <;> omega

/-- The levels in their order, each against the next (R88). -/
theorem scaleValue_succ_le (form : Scale2Form) (v : Nat) :
    scaleValue form .l2 v ≤ scaleValue form .l1 v ∧ scaleValue form .l3 v ≤ scaleValue form .l2 v ∧
      scaleValue form .l4 v ≤ scaleValue form .l3 v ∧
      scaleValue form .l5 v ≤ scaleValue form .l4 v := by
  obtain ⟨h3, h1⟩ := scale2_between form v
  simp only [scaleValue, Nat.shiftRight_eq_div_pow]
  omega

/-- The chain of the five levels gives the order of any two (R88). -/
theorem scaleValue_le_of_level_le (h : levelNumber l ≤ levelNumber k) :
    scaleValue form k v ≤ scaleValue form l v := by
  obtain ⟨h12, h23, h34, h45⟩ := scaleValue_succ_le form v
  cases l <;> cases k <;> simp only [levelNumber] at h <;> omega

theorem levelNumber_pos (l : Level) : 1 ≤ levelNumber l := by
  cases l <;> decide

/-- The least level is 1, which is the identity (R88). -/
theorem scaleValue_le_self : scaleValue form l v ≤ v :=
  scaleValue_le_of_level_le (l := .l1) (levelNumber_pos l)

theorem scaleValue_le_scaleValue (h : v ≤ w) : scaleValue form l v ≤ scaleValue form l w := by
  cases l with
  | l1 => exact h
  | l2 => exact scale2_le_scale2 form h
  | l3 | l4 | l5 =>
    simp only [scaleValue, Nat.shiftRight_eq_div_pow]
    exact Nat.div_le_div_right h

/-! ## The scaler by its level's number (R85) -/

/-- The scaler of this hardware, as divisions rounded down (R85, R86). -/
theorem scaleValue_eq_dimmed (l : Level) (v : Nat) :
    scaleValue scale2Form l v = dimmed (levelNumber l) v := by
  cases l with
  | l1 => rfl
  | l2 => exact scale2_eq v
  | l3 => exact Nat.shiftRight_eq_div_pow v 1
  | l4 => exact Nat.shiftRight_eq_div_pow v 2
  | l5 => exact Nat.shiftRight_eq_div_pow v 3

/-- A scaled channel loses nothing in seven bits. -/
theorem toNat_scaleChannel (l : Level) (v : Channel) :
    (scaleChannel l v).toNat = dimmed (levelNumber l) v.toNat := by
  have hv : scaleValue scale2Form l v.toNat < 2 ^ 7 := scaleValue_le_self.trans_lt v.isLt
  rw [scaleChannel, BitVec.toNat_ofNat, Nat.mod_eq_of_lt hv, scaleValue_eq_dimmed]

theorem scaleColor_eq_dim (l : Level) (c : Color) : scaleColor l c = dim (levelNumber l) c := by
  simp only [scaleColor, Color.map, scaleChannel, scaleValue_eq_dimmed, dim]

theorem packed_dimmed (l : Level) (c : Color) :
    packed (dimmed (levelNumber l) c.r.toNat) (dimmed (levelNumber l) c.g.toNat)
      (dimmed (levelNumber l) c.b.toNat) = colorWord (scaleColor l c) := by
  simp only [← toNat_scaleChannel]
  exact packed_eq_colorWord (scaleColor l c)

/-! ## The SCALE command (R87) -/

theorem execScale_of_level (h : levelOf lvl = some l) (c : Color) (s : State) :
    execScale lvl c s = .next (writeResult (colorWord (scaleColor l c)) s) := by
  rw [execScale, h]

theorem execScale_of_no_level (h : levelOf lvl = none) (c : Color) (s : State) :
    execScale lvl c s = raiseIllegal (scaleWord lvl c) s := by
  rw [execScale, h]

/-- SCALE's word from its level and channels as numbers (R65 format SC). -/
theorem scaleWord_eq_ofNat (lvl : BitVec 3) (c : Color) :
    scaleWord lvl c = BitVec.ofNat 32 (0x11 * 2 ^ 24 + lvl.toNat * 2 ^ 21 + c.r.toNat * 2 ^ 14 +
      c.g.toNat * 2 ^ 7 + c.b.toNat) := by
  have h : (scaleWord lvl c).toNat = 0x11 * 2 ^ 24 + lvl.toNat * 2 ^ 21 + c.r.toNat * 2 ^ 14 +
      c.g.toNat * 2 ^ 7 + c.b.toNat := by
    rw [scaleWord, toNat_commandWord, toNat_levelColor, ← Nat.add_assoc, ← Nat.add_assoc,
      ← Nat.add_assoc]
    rfl
  rw [← h, BitVec.ofNat_toNat, BitVec.setWidth_eq]

end Sys2Proof.Machine

namespace Sys2Proof.Proofs

open Sys2Proof.Machine Sys2Proof.Claims

/-- Settles O36: the operand stands for a level, and the packed dimmed channels are the word of the
color scaled at it. -/
theorem scaleCommandScalesEachChannel : Obligations.ScaleCommandScalesEachChannel := by
  intro lvl c s h1 h5
  obtain ⟨l, hl, hn⟩ := exists_levelOf ⟨h1, h5⟩
  rw [hn, packed_dimmed]
  exact execScale_of_level hl c s

/-- Settles O37: the operand stands for no level, so the command raises Illegal with its word. -/
theorem scaleAtNoLevelIsIllegal : Obligations.ScaleAtNoLevelIsIllegal := by
  intro lvl c s h
  rw [← scaleWord_eq_ofNat]
  exact execScale_of_no_level (levelOf_eq_none h) c s

/-- Settles O38: the levels are ordered as their numbers, level 1 is the identity, and each level's
formula is monotone. -/
theorem scalerIsMonotoneInLevelAndValue : Obligations.ScalerIsMonotoneInLevelAndValue :=
  fun _ _ _ _ _ _ _ =>
    ⟨rfl, scaleValue_le_of_level_le, scaleValue_le_self, Nat.le_zero.mp scaleValue_le_self,
      scaleValue_le_scaleValue⟩

end Sys2Proof.Proofs
end

section
/-! PROOF. The Dither generator (42_generators.md R105 to R109): bit reversal, the engine steps of a
frame in progress, and what such a frame keeps. -/

namespace Sys2Proof.Claims

open Sys2Proof.Machine

variable {s t : State} {b i j n r : Nat} {c : Color} {l : Level}

/-! ## The bit count and the bit reversal (R106, R107) -/

theorem isDitherBits_ditherBits (n : Nat) : IsDitherBits n (ditherBits n) := by
  unfold ditherBits
  split
  · exact ⟨by simpa using ‹n ≤ 1›, fun _ _ => Nat.zero_le _⟩
  · have hn : n - 1 ≠ 0 := by omega
    have hlog (c : Nat) : Nat.log2 (n - 1) < c ↔ n ≤ 2 ^ c := by
      rw [Nat.log2_lt hn]; omega
    exact ⟨(hlog _).mp (Nat.lt_succ_self _), fun c hc => (hlog c).mpr hc⟩

theorem IsDitherBits.ditherBits_eq (h : IsDitherBits n b) : ditherBits n = b := by
  have h' := isDitherBits_ditherBits n
  exact le_antisymm (h'.2 b h.1) (h.2 _ h'.1)

theorem IsDitherBits.ditherSubSteps_eq (h : IsDitherBits n b) : ditherSubSteps n = 2 ^ b := by
  rw [ditherSubSteps, h.ditherBits_eq]

/-- A strip of at most 128 pixels takes at most 128 sub-steps (R41, R106). -/
theorem IsDitherBits.two_pow_le (h : IsDitherBits n b) (hn : n ≤ 128) : 2 ^ b ≤ 128 :=
  (Nat.pow_le_pow_right (by decide) (h.2 7 hn)).trans_eq rfl

theorem reverseBits_lt (b i : Nat) : reverseBits b i < 2 ^ b := by
  induction b generalizing i with
  | zero => exact Nat.one_pos
  | succ b ih =>
    have hlow := ih (i / 2)
    have hbit : i % 2 * 2 ^ b ≤ 1 * 2 ^ b := Nat.mul_le_mul_right _ (by omega)
    rw [reverseBits, pow_succ]
    omega

theorem testBit_reverseBits (h : j < b) : (reverseBits b i).testBit j = i.testBit (b - 1 - j) := by
  induction b generalizing i with
  | zero => exact absurd h (Nat.not_lt_zero j)
  | succ b ih =>
    rw [reverseBits, mul_comm, Nat.testBit_two_pow_mul_add _ (reverseBits_lt b (i / 2))]
    split
    · rename_i hj
      rw [ih hj, Nat.testBit_div_two]
      congr 1
      omega
    · obtain rfl : j = b := by omega
      simp

theorem isReversed_reverseBits (b i : Nat) : IsReversed b i (reverseBits b i) :=
  ⟨reverseBits_lt b i, fun _ => testBit_reverseBits⟩

/-- A number below `2 ^ b` is given by its `b` low bits. -/
theorem eq_of_testBit_below (hi : i < 2 ^ b) (hj : j < 2 ^ b)
    (h : ∀ k < b, i.testBit k = j.testBit k) : i = j := by
  refine Nat.eq_of_testBit_eq fun k => ?_
  rcases lt_or_ge k b with hk | hk
  · exact h k hk
  · have hpow := Nat.pow_le_pow_right (n := 2) (by decide) hk
    rw [Nat.testBit_lt_two_pow (hi.trans_le hpow), Nat.testBit_lt_two_pow (hj.trans_le hpow)]

theorem IsReversed.eq_reverseBits (h : IsReversed b i r) : r = reverseBits b i :=
  eq_of_testBit_below h.1 (reverseBits_lt b i) fun k hk => by
    rw [h.2 k hk, testBit_reverseBits hk]

/-- Reversing twice gives the index back. -/
theorem reverseBits_reverseBits (h : i < 2 ^ b) : reverseBits b (reverseBits b i) = i :=
  eq_of_testBit_below (reverseBits_lt b _) h fun k hk => by
    rw [testBit_reverseBits hk, testBit_reverseBits (by omega)]
    congr 1
    omega

theorem map_reverseBits_perm (b : Nat) :
    ((List.range (2 ^ b)).map (reverseBits b)).Perm (List.range (2 ^ b)) := by
  have hinj : ∀ i ∈ List.range (2 ^ b), ∀ j ∈ List.range (2 ^ b),
      reverseBits b i = reverseBits b j → i = j := by
    intro i hi j hj h
    rw [← reverseBits_reverseBits (List.mem_range.mp hi), h,
      reverseBits_reverseBits (List.mem_range.mp hj)]
  have hnodup := List.nodup_range.map_on hinj
  refine (List.perm_ext_iff_of_nodup hnodup List.nodup_range).mpr fun k => ?_
  simp only [List.mem_map, List.mem_range]
  constructor
  · rintro ⟨i, -, rfl⟩
    exact reverseBits_lt b i
  · exact fun hk => ⟨reverseBits b k, reverseBits_lt b k, reverseBits_reverseBits hk⟩

/-! ## The engine steps of a Dither frame (R108) -/

/-- The elapsed time of the model is that of R121. -/
theorem elapsedSince_eq_elapsed (base t : Millis) : elapsedSince base t = elapsed base t :=
  elapsedSince_eq base t

/-- The engine need not wait before the next move of the frame (R108). -/
def DitherReady (s : State) : Prop :=
  s.regs.dsub = 0 ∨ s.cfg.ditherWait.toNat ≤ elapsed s.regs.dt s.io.nowMs

theorem dstepEnabled_iff :
    dstepEnabled s = true ↔
      s.regs.busy = true ∧ s.regs.dsub.toNat < ditherSubSteps s.cfg.n ∧ DitherReady s := by
  simp only [dstepEnabled, DitherReady, Bool.and_eq_true, Bool.or_eq_true, decide_eq_true_eq,
    ditherWaited_iff, elapsedSince_eq_elapsed, and_assoc]

theorem dendEnabled_iff :
    dendEnabled s = true ↔ s.regs.busy = true ∧ s.regs.dsub.toNat = ditherSubSteps s.cfg.n ∧
      s.cfg.ditherWait.toNat ≤ elapsed s.regs.dt s.io.nowMs := by
  simp only [dendEnabled, Bool.and_eq_true, decide_eq_true_eq, ditherWaited_iff,
    elapsedSince_eq_elapsed, and_assoc]

theorem ditherStep_of_subStep (hb : s.regs.busy = true) (hbits : IsDitherBits s.cfg.n b)
    (hlt : s.regs.dsub.toNat < 2 ^ b) (hready : DitherReady s)
    (hl : levelOf s.regs.brightness = some l) : ditherStep s = .next (subStepDither l s) := by
  have hd : dstepEnabled s = true :=
    dstepEnabled_iff.mpr ⟨hb, hbits.ditherSubSteps_eq.symm ▸ hlt, hready⟩
  rw [ditherStep, if_pos hd, dstep, withBrightness_of_level hl]

theorem ditherStep_of_end (hb : s.regs.busy = true) (hbits : IsDitherBits s.cfg.n b)
    (heq : s.regs.dsub.toNat = 2 ^ b)
    (hwait : s.cfg.ditherWait.toNat ≤ elapsed s.regs.dt s.io.nowMs) :
    ditherStep s = .next (endDither s) := by
  rw [← hbits.ditherSubSteps_eq] at heq
  have hd : ¬ dstepEnabled s = true := fun h => (dstepEnabled_iff.mp h).2.1.ne heq
  rw [ditherStep, if_neg hd, if_pos (dendEnabled_iff.mpr ⟨hb, heq, hwait⟩), dend]

theorem ditherStep_of_wait (hready : ¬ DitherReady s) : ditherStep s = .next s := by
  have hd : ¬ dstepEnabled s = true := fun h => hready (dstepEnabled_iff.mp h).2.2
  have he : ¬ dendEnabled s = true := fun h => hready (.inr (dendEnabled_iff.mp h).2.2)
  rw [ditherStep, if_neg hd, if_neg he]

/-- The pixel of the next sub-step as a number (R108): 16 bits hold it. -/
theorem toNat_ofNat_reverseBits (hpow : 2 ^ b ≤ 128) (i : Nat) :
    (BitVec.ofNat 16 (reverseBits b i)).toNat = reverseBits b i := by
  have := reverseBits_lt b i
  rw [BitVec.toNat_ofNat, Nat.mod_eq_of_lt (by omega)]

theorem ditherIndex_eq (hbits : IsDitherBits s.cfg.n b) :
    ditherIndex s = BitVec.ofNat 16 (reverseBits b s.regs.dsub.toNat) := by
  rw [ditherIndex, hbits.ditherBits_eq]

/-- A frame of one pixel (R108). -/
theorem frame_singleton (n : Nat) (idx : PixelIndex) (c : Color) (p : PixelSurface) :
    p.frame n [(idx, c)] =
      { surf := writePixel n p.surf idx c
        strip := writePixel n p.surf idx c
        events := p.events ++ [.setPixel idx c, .flush] } :=
  congrArg (PixelSurface.mk _ _) (List.append_assoc p.events [.setPixel idx c] [.flush])

theorem subStepDither_eq (l : Level) (s : State) :
    subStepDither l s = { s with
      regs.dt := now s
      regs.dsub := s.regs.dsub + 1
      px := s.px.frame s.cfg.n [(ditherIndex s, scaleColor l s.regs.ditherColor)] } := rfl

/-- The advances of the counters are those of R124, so the model's completion is. -/
theorem complete_eq_completed (tm : Millis) (s : State) : complete tm s = completed tm s := by
  have hanim : advanceAnim s.regs.animStep = animAfter s.regs.animStep.toNat := by
    rw [advanceAnim, animAfter, BitVec.ofNat_add, BitVec.ofNat_toNat, BitVec.setWidth_eq]
    rfl
  have hframe : advanceFrame s.cfg.n s.regs.frameStep =
      frameAfter s.cfg.n s.regs.frameStep.toNat := by
    rw [advanceFrame, frameAfter, BitVec.ofNat_add, BitVec.ofNat_toNat, BitVec.setWidth_eq]
    rfl
  rw [complete, completed, hanim, hframe]

/-! ## What a Dither frame keeps (R108, R109) -/

theorem ditherEvents_succ (b : Nat) (c : Color) (m : Nat) :
    ditherEvents b c (m + 1) =
      ditherEvents b c m ++ [.setPixel (BitVec.ofNat 16 (reverseBits b m)) c, .flush] := by
  simp [ditherEvents, List.range_succ]

theorem InDither.subStepsDone_eq (h : InDither b c s) : subStepsDone b s = s.regs.dsub.toNat :=
  if_pos h.busy

theorem subStepsDone_envStep (b : Nat) (s : State) :
    subStepsDone b (envStep s) = subStepsDone b s := by
  rw [subStepsDone, envStep_regs, subStepsDone]

/-- A frame in progress does not see the inputs. -/
protected theorem InDither.envStep (h : InDither b c s) : InDither b c (envStep s) where
  valid := by simpa using h.valid
  busy := by simpa using h.busy
  lit := by simpa only [Lit, envStep_regs] using h.lit
  surfaced := by simpa only [Surfaced, envStep_px, envStep_cfg] using h.surfaced
  bits := by simpa using h.bits
  bound := by simpa using h.bound
  color := by simpa using h.color
  pixels := by simpa using h.pixels

/-- DSUB does not wrap: the sub-steps of at most 128 pixels are counted in eight bits. -/
theorem InDither.toNat_dsub_succ (h : InDither b c s) :
    (s.regs.dsub + 1).toNat = s.regs.dsub.toNat + 1 := by
  have hpow := h.bits.two_pow_le h.surfaced.2
  have hbound := h.bound
  rw [BitVec.toNat_add, Nat.mod_eq_of_lt (by simp; omega)]
  rfl

/-- The sub-step of a frame in progress, as one write of its own color. -/
theorem InDither.subStep_px (h : InDither b c s) (hl : s.regs.brightness.toNat = levelNumber l) :
    (subStepDither l s).px =
      { surf := writePixel s.cfg.n s.px.surf (BitVec.ofNat 16 (reverseBits b s.regs.dsub.toNat)) c
        strip := writePixel s.cfg.n s.px.surf (BitVec.ofNat 16 (reverseBits b s.regs.dsub.toNat)) c
        events := s.px.events ++
          [.setPixel (BitVec.ofNat 16 (reverseBits b s.regs.dsub.toNat)) c, .flush] } := by
  rw [subStepDither_px, ditherIndex_eq h.bits, scaleColor_eq_dim, ← hl, h.color, frame_singleton]

/-- A pixel that is written or held `c` before holds `c` after a write of `c`. -/
theorem readPixel_writePixel_of_or {m : List Color} {idx : PixelIndex} (hm : Memory.wf n m)
    (hi : i < n) (h : idx.toNat = i ∨ readPixel m i = some c) :
    readPixel (writePixel n m idx c) i = some c := by
  by_cases he : idx.toNat = i
  · subst he
    exact readPixel_writePixel_same hm hi
  · rw [readPixel_writePixel_other m c he]
    exact h.resolve_left he

/-- A sub-step adds its own pixel to those the frame has set. -/
theorem InDither.subStep (h : InDither b c s) (hlt : s.regs.dsub.toNat < 2 ^ b)
    (hl : s.regs.brightness.toNat = levelNumber l) : InDither b c (subStepDither l s) where
  valid := h.valid
  busy := h.busy
  lit := h.lit
  surfaced := ⟨(frame_wf h.surfaced.1).1, h.surfaced.2⟩
  bits := h.bits
  bound := h.toNat_dsub_succ.trans_le hlt
  color := h.color
  pixels := fun i hi hn => by
    have hi : i < s.regs.dsub.toNat + 1 := hi.trans_eq h.toNat_dsub_succ
    rw [h.subStep_px hl]
    refine readPixel_writePixel_of_or h.surfaced.1 hn ?_
    rw [toNat_ofNat_reverseBits (h.bits.two_pow_le h.surfaced.2)]
    rcases Nat.lt_succ_iff_lt_or_eq.mp hi with hi | rfl
    · exact .inr (h.pixels i hi hn)
    · exact .inl rfl

/-- After all sub-steps every pixel is set: each is the reversal of its own reversal. -/
theorem InDither.ended (h : InDither b c s) (heq : s.regs.dsub.toNat = 2 ^ b) :
    EndedDither c (endDither s) where
  busy := rfl
  dsub := rfl
  pixels := fun i hi => by
    have hrev := reverseBits_reverseBits (hi.trans_le h.bits.1)
    have hset := h.pixels (reverseBits b i) (heq ▸ reverseBits_lt b i)
    rw [hrev] at hset
    exact hset hi

/-- What a Dither step makes of a frame in progress: the conclusion of the statement on Dither
frames, for the state whose inputs are sampled. -/
structure DitherProgress (b : Nat) (c : Color) (s t : State) : Prop where
  frame : InDither b c t ∨ EndedDither c t ∧ t.regs.lastFrame = s.regs.dnow
  moves : DitherReady s → t.regs.dsub.toNat = s.regs.dsub.toNat + 1 ∨ t.regs.busy = false
  events : ∀ before, s.px.events = before ++ ditherEvents b c (subStepsDone b s) →
    t.px.events = before ++ ditherEvents b c (subStepsDone b t)
  strip : (0 < subStepsDone b s → s.px.strip = s.px.surf) →
    0 < subStepsDone b t → t.px.strip = t.px.surf

theorem InDither.progress_subStep (h : InDither b c s) (hlt : s.regs.dsub.toNat < 2 ^ b)
    (hl : s.regs.brightness.toNat = levelNumber l) : DitherProgress b c s (subStepDither l s) where
  frame := .inl (h.subStep hlt hl)
  moves := fun _ => .inl h.toNat_dsub_succ
  events := fun before hbefore => by
    have hdone : subStepsDone b (subStepDither l s) = s.regs.dsub.toNat + 1 :=
      (h.subStep hlt hl).subStepsDone_eq.trans h.toNat_dsub_succ
    rw [hdone, ditherEvents_succ, h.subStep_px hl, hbefore, h.subStepsDone_eq, List.append_assoc]
  strip := fun _ _ => by rw [h.subStep_px hl]

theorem InDither.progress_end (h : InDither b c s) (heq : s.regs.dsub.toNat = 2 ^ b) :
    DitherProgress b c s (endDither s) := by
  have hdone : subStepsDone b (endDither s) = subStepsDone b s := by
    rw [h.subStepsDone_eq, heq]; rfl
  exact
    { frame := .inr ⟨h.ended heq, rfl⟩
      moves := fun _ => .inr rfl
      events := fun _ => by rw [hdone]; exact id
      strip := by rw [hdone]; exact id }

theorem InDither.progress_wait (h : InDither b c s) (hready : ¬ DitherReady s) :
    DitherProgress b c s s where
  frame := .inl h
  moves := fun hr => absurd hr hready
  events := fun _ => id
  strip := id

/-- A Dither step of a frame in progress: a sub-step while some are left, else the end, and neither
before the wait is over. -/
protected theorem InDither.ditherStep (h : InDither b c s) :
    ∃ t, ditherStep s = .next t ∧ DitherProgress b c s t := by
  by_cases hready : DitherReady s
  · rcases h.bound.lt_or_eq with hlt | heq
    · obtain ⟨l, hl, hn⟩ := exists_levelOf h.lit
      exact ⟨_, ditherStep_of_subStep h.busy h.bits hlt hready hl, h.progress_subStep hlt hn⟩
    · have hdsub : s.regs.dsub ≠ 0 := fun h0 => by
        rw [h0] at heq
        exact (Nat.two_pow_pos b).ne heq
      exact ⟨_, ditherStep_of_end h.busy h.bits heq (hready.resolve_left hdsub),
        h.progress_end heq⟩
  · exact ⟨_, ditherStep_of_wait hready, h.progress_wait hready⟩

end Sys2Proof.Claims

namespace Sys2Proof.Proofs

open Sys2Proof.Machine Sys2Proof.Claims

/-- Settles O59: the step of the sampled state is a Dither step, which keeps the pixels set and adds
the one it names; at the end the reversals have named all of them. -/
theorem ditherFrameFillsTheStrip : Obligations.DitherFrameFillsTheStrip := by
  refine ⟨fun s b hv hb hd hlit hs hbits => ?_, fun s b c h hr => ?_⟩
  · have hdsub : s.regs.dsub.toNat = 0 := congrArg BitVec.toNat hd
    exact
      { valid := hv, busy := hb, lit := hlit, surfaced := hs, bits := hbits, color := rfl
        bound := hdsub ▸ Nat.zero_le _
        pixels := fun i hi => absurd (hdsub ▸ hi) (Nat.not_lt_zero i) }
  · obtain ⟨t, ht, hframe, hmoves, hevents, hstrip⟩ := h.envStep.ditherStep
    rw [DitherReady] at hmoves
    rw [subStepsDone_envStep] at hevents hstrip
    simp only [envStep_regs, envStep_cfg, envStep_px] at hframe hmoves hevents hstrip
    exact ⟨t, (step_of_busy h.valid hr h.busy).trans ht, hframe, hmoves, hevents, hstrip⟩

/-- Settles O55: the sub-step is enabled, and its index is the one number that reverses DSUB. -/
theorem ditherSubStepDrawsTheReversedIndex : Obligations.DitherSubStepDrawsTheReversedIndex := by
  intro s b r hv hr hb hlit hbits hlt hrev hready
  obtain rfl := hrev.eq_reverseBits
  obtain ⟨l, hl, hn⟩ := exists_levelOf hlit
  have hidx := toNat_ofNat_reverseBits (hbits.two_pow_le hv.2.1) s.regs.dsub.toNat
  rw [step_of_busy hv hr hb, ditherStep_of_subStep (b := b) (l := l) (by simpa using hb)
    (by simpa using hbits) (by simpa using hlt) (by simpa [DitherReady] using hready)
    (by simpa using hl), subStepDither_eq, frame_singleton, ditherIndex_eq (b := b)
    (by simpa using hbits)]
  simp only [envStep_regs, envStep_cfg, envStep_px, scaleColor_eq_dim, ← hn, writePixel, hidx]
  rfl

/-- Settles O56: the end is enabled, and the model's completion is that of R124. -/
theorem ditherEndCompletesWithTheTickTime : Obligations.DitherEndCompletesWithTheTickTime := by
  intro s b hv hr hb hbits heq hwait
  rw [step_of_busy hv hr hb, ditherStep_of_end (b := b) (by simpa using hb) (by simpa using hbits)
    (by simpa using heq) (by simpa using hwait), endDither, complete_eq_completed, envStep_regs]

/-- Settles O57: neither a sub-step nor the end is enabled. -/
theorem ditherHoldsUntilTheWaitIsOver : Obligations.DitherHoldsUntilTheWaitIsOver := by
  intro s hv hr hb hd hwait
  rw [step_of_busy hv hr hb]
  refine ditherStep_of_wait ?_
  simpa [DitherReady] using ⟨hd, hwait⟩

/-- Settles O58: the bit count is found by `Nat.log2`, and reversing twice gives the index back. -/
theorem bitReversalPermutesTheSubSteps : Obligations.BitReversalPermutesTheSubSteps :=
  ⟨isDitherBits_ditherBits, fun b i _ => isReversed_reverseBits b i, map_reverseBits_perm⟩

/-- Settles O54: the start of the frame is these three writes. -/
theorem genDitherStartsItsFrame : Obligations.GenDitherStartsItsFrame :=
  fun _ => rfl

end Sys2Proof.Proofs
end

section
/-! PROOF. The two sine functions and the plasma distance (42_generators.md R95 to R97, R100, R101):
their ranges, the properties of WSIN, and the rounding against the real sine. -/

namespace Sys2Proof.Machine

open Sys2Proof.Claims

variable {n k m d div px y : Nat} {a : Anchor}

/-! ## The sign of a number of half turns, and the angles (R95, R101) -/

theorem halfTurns_succ (q x : Nat) : halfTurns (q + 1) x = -halfTurns q x := by
  unfold halfTurns
  split <;> split
  · omega
  · rw [neg_neg]
  · rfl
  · omega

theorem abs_halfTurns (q x : Nat) : |halfTurns q x| = x := by
  unfold halfTurns
  split
  · exact Nat.abs_cast x
  · rw [abs_neg, Nat.abs_cast]

theorem halfTurns_zero (q : Nat) : halfTurns q 0 = 0 :=
  abs_eq_zero.mp (abs_halfTurns q 0)

theorem scaledSine_zero : scaledSine 0 = 0 := by decide

theorem scaledSine_quarterTurn : scaledSine (pi64 / 2) = 16384 := by decide

/-- A rest of a half turn, reflected at the quarter turn, is at most half of it. -/
theorem two_mul_min_sub_le (p x : Nat) : 2 * min x (p - x) ≤ p := by
  omega

/-- At most half of `n` parts of a half turn are at most a quarter turn. -/
theorem mul_div_le_quarterTurn (h : 2 * m ≤ n) : pi64 * m / n ≤ pi64 / 2 + 1 := by
  have hpi : pi64 ≤ 2 * (pi64 / 2 + 1) := by decide
  refine Nat.div_le_of_le_mul (Nat.le_of_mul_le_mul_left ?_ Nat.two_pos)
  calc 2 * (pi64 * m) = pi64 * (2 * m) := Nat.mul_left_comm ..
    _ ≤ 2 * (pi64 / 2 + 1) * n := Nat.mul_le_mul hpi h
    _ = 2 * (n * (pi64 / 2 + 1)) := by rw [Nat.mul_assoc, Nat.mul_comm n]

theorem abs_psin_le (d div : Nat) : |psin d div| ≤ 16384 := by
  rw [psin, abs_halfTurns]
  have h := two_mul_min_sub_le pi64 (d * one64 / div % pi64)
  exact_mod_cast scaledSine_le (by omega)

theorem psin_zero (div : Nat) : psin 0 div = 0 := by
  have h : scaledSine (min (0 % pi64) (pi64 - 0 % pi64)) = 0 := scaledSine_zero
  rw [psin, Nat.zero_mul, Nat.zero_div, h, halfTurns_zero]

/-! ## The properties of WSIN (R101) -/

theorem abs_wsin_le (n k : Nat) : |wsin n k| ≤ 16384 := by
  rw [wsin, abs_halfTurns]
  exact_mod_cast scaledSine_le (mul_div_le_quarterTurn (two_mul_min_sub_le n (k % n)))

theorem wsin_add_half_period (hn : 1 ≤ n) (k : Nat) : wsin n (k + n) = -wsin n k := by
  rw [wsin, Nat.add_div_right k hn, Nat.add_mod_right, halfTurns_succ, wsin]

theorem wsin_of_dvd (h : n ∣ k) : wsin n k = 0 := by
  rw [wsin, Nat.mod_eq_zero_of_dvd h, Nat.zero_min, Nat.mul_zero, Nat.zero_div, scaledSine_zero,
    halfTurns_zero]

/-- The peaks and troughs lie halfway between the zeros. -/
theorem wsin_of_odd_half (hn : 1 ≤ n) {j : Nat} (h : 2 * k = (2 * j + 1) * n) :
    wsin n k = if k % (2 * n) < n then 16384 else -16384 := by
  obtain ⟨m, rfl⟩ : 2 ∣ n := by
    have h2 : 2 ∣ (2 * j + 1) * n := ⟨k, h.symm⟩
    exact (Nat.prime_two.dvd_mul.mp h2).resolve_left (by omega)
  have hk : k = m + 2 * m * j := by linarith
  have hdiv : k / (2 * m) = j := by
    rw [hk, Nat.add_mul_div_left _ _ hn, Nat.div_eq_of_lt (by omega), Nat.zero_add]
  have hmod : k % (2 * m) = m := by
    rw [hk, Nat.add_mul_mod_self_left, Nat.mod_eq_of_lt (by omega)]
  have hangle : pi64 * min m (2 * m - m) / (2 * m) = pi64 / 2 := by
    rw [show min m (2 * m - m) = m by omega, Nat.mul_div_mul_right _ _ (by omega)]
  have hsign : k % (2 * (2 * m)) < 2 * m ↔ j % 2 = 0 := by
    have hperiod := Nat.mod_mul (x := k) (a := 2 * m) (b := 2)
    rw [hmod, hdiv, Nat.mul_comm (2 * m) 2] at hperiod
    rw [hperiod]
    rcases Nat.mod_two_eq_zero_or_one j with hj | hj <;> rw [hj] <;> omega
  rw [wsin, hdiv, hmod, hangle, scaledSine_quarterTurn, halfTurns]
  exact if_congr hsign.symm rfl rfl

/-! ## The rounding against the real sine (R10, R95, R101) -/

/-- Closer than 1/2 is nearest: no tie is left to break. -/
theorem isRha_of_near {x : ℝ} {z : ℤ} (h : |x - z| < 1 / 2) : IsRha x z :=
  ⟨h.le, fun he => absurd he h.ne⟩

/-- The fixed-point angles of WSIN for every N: none is near a rounding tie. This is a fact about
these numbers, found by computing them. -/
theorem margin_wave : ∀ n < 129, ∀ m < n / 2 + 1, Margin (pi64 * m / n) := by
  decide +kernel

/-- The same for the fixed-point angles of PSIN with the two divisors in use (R94, R96). -/
theorem margin_plasma : ∀ div ∈ [7, 8], ∀ d < 572,
    Margin (min (d * one64 / div % pi64) (pi64 - d * one64 / div % pi64)) := by
  decide +kernel

theorem div_of_mem_plasmaAnchors : ∀ a ∈ plasmaAnchors, a.div ∈ [7, 8] := by
  decide

/-! ## The plasma's distance, sum and position (R96, R97, R99) -/

theorem plasmaDistance_eq_distance (px y : Nat) (a : Anchor) :
    plasmaDistance px y a = distance px y a := by
  rw [plasmaDistance, distance, isqrt_eq_sqrt, sq, sq]

theorem distance_le (hpx : px ≤ 512) (hy : y ≤ 127) (hax : a.ax ≤ 255) (hay : a.ay ≤ 255) :
    distance px y a ≤ 571 := by
  have hdx : ((px : Int) - a.ax) ^ 2 ≤ 512 ^ 2 := sq_le_sq' (by omega) (by omega)
  have hdy : ((y : Int) - a.ay) ^ 2 ≤ 255 ^ 2 := sq_le_sq' (by omega) (by omega)
  have hlt : distance px y a < 572 := Nat.sqrt_lt'.mpr (by omega)
  exact Nat.le_of_lt_succ hlt

theorem abs_plasmaSum_le (px y : Nat) : |plasmaSum plasmaAnchors px y| ≤ 4 * 16384 := by
  have hterm (d div : Nat) := abs_le.mp (abs_psin_le d div)
  rw [plasmaSum_anchors, abs_le]
  have h1 := hterm (plasmaDistance px y ⟨128, 128, 8⟩) 8
  have h2 := hterm (plasmaDistance px y ⟨64, 64, 8⟩) 8
  have h3 := hterm (plasmaDistance px y ⟨192, 64, 7⟩) 7
  have h4 := hterm (plasmaDistance px y ⟨192, 100, 8⟩) 8
  omega

theorem plasmaPosition_lt (sum : Int) : plasmaPosition sum < 384 := by
  unfold plasmaPosition
  omega

end Sys2Proof.Machine

namespace Sys2Proof.Proofs

open Sys2Proof.Machine Sys2Proof.Claims

/-- Settles O48: a sine term is a rounded sine up to its sign, and the squared distance is below
572 squared. -/
theorem plasmaIntermediatesAreBounded : Obligations.PlasmaIntermediatesAreBounded := by
  refine ⟨fun d div _ => ⟨abs_psin_le d div, psin_zero div⟩, fun px y a hpx hy hax hay => ?_,
    fun px y => ⟨abs_plasmaSum_le px y, plasmaPosition_lt _⟩⟩
  have hd := plasmaDistance_eq_distance px y a
  exact ⟨hd ▸ distance_le hpx hy hax hay, hd⟩

/-- Settles O51: the range, the change of sign, the zeros and the peaks of WSIN. -/
theorem waveSineHasTheStatedProperties : Obligations.WaveSineHasTheStatedProperties :=
  fun n k hn =>
    ⟨abs_wsin_le n k, wsin_add_half_period hn k, wsin_of_dvd, fun _ => wsin_of_odd_half hn⟩

/-- Settles O52: no angle of WSIN is near a rounding tie, so the error of the fixed point does not
change the nearest integer. -/
theorem waveSineIsTheRoundedRealSine : Obligations.WaveSineIsTheRoundedRealSine := by
  intro n k hn hn128 _
  exact isRha_of_near (wsin_near hn (margin_wave n (by omega) _ (by omega)))

/-- Settles O53: the same for the angles of PSIN. -/
theorem plasmaSineIsTheRoundedRealSine : Obligations.PlasmaSineIsTheRoundedRealSine := by
  intro d hd a ha
  have hdiv := div_of_mem_plasmaAnchors a ha
  have hpos : 1 ≤ a.div := by
    simp only [List.mem_cons, List.not_mem_nil, or_false] at hdiv
    omega
  exact isRha_of_near (psin_near hpos hd (margin_plasma a.div hdiv d (by omega)))

end Sys2Proof.Proofs
end

section
/-! PROOF. The generators that draw a whole frame (42_generators.md): the exact ones pixel by pixel
(R93, R98, R104), the opaque ones within their bounds (R110), and their dispatch (R92). -/

namespace Sys2Proof.Machine

open Sys2Proof.Claims

variable {s t : State} {l : Level}

/-! ## A frame of scaled pixels (R90, R91) -/

/-- A frame of the scaled pixels 0..N-1 draws them. -/
theorem drewFrame_of_scaledPixels {color colorAt : Nat → Color} (hs : Surfaced s)
    (hl : s.regs.brightness.toNat = levelNumber l) (hcolor : color = colorAt)
    (hpx : t.px = s.px.frame s.cfg.n (scaledPixels s.cfg.n l color))
    (hcfg : t.cfg = s.cfg) (hio : t.io = s.io) (hdraws : t.draws = s.draws) :
    DrewFrame s t fun i => dim s.regs.brightness.toNat (colorAt i) := by
  subst hcolor
  simp only [hl, ← scaleColor_eq_dim]
  obtain ⟨hlen, hn⟩ := hs
  exact
    { events := by simp [hpx, scaledPixels, Function.comp_def]
      pixels := fun i hi => by
        rw [hpx, frame_surf]
        exact readPixel_writePixels_range _ hlen (by omega) _ le_rfl i hi
      size := by rw [hpx, frame_surf, length_writePixels, hlen]
      strip := by rw [hpx, frame_strip, frame_surf]
      cfg := hcfg
      io := hio
      draws := hdraws }

/-! ## The colors of the exact generators -/

theorem rainbowColor_eq_rainbowAt (s : State) : rainbowColor s = rainbowAt s :=
  funext fun _ => wheel_eq_hueColor (Nat.mod_lt _ (by decide))

theorem plasmaColor_eq_plasmaAt (s : State) : plasmaColor s = plasmaAt s := by
  funext y
  rw [plasmaColor, wheel_eq_hueColor (plasmaPosition_lt _), plasmaSum_anchors, plasmaPosition]
  simp only [plasmaDistance_eq_distance]
  rw [plasmaAt, plasmaTotal, Int.fdiv_eq_ediv_of_nonneg _ (by decide), plasmaAbscissa]

theorem waveBase_eq_waveBaseAt (s : State) : waveBase s = waveBaseAt s :=
  if_congr BitVec.toNat_eq rfl rfl

theorem blendValue_eq_blended (v sine : Int) : blendValue v sine = blended v sine := by
  rw [blendValue, blended, Int.fdiv_eq_ediv_of_nonneg _ (by decide),
    Int.fdiv_eq_ediv_of_nonneg _ (by decide)]

theorem waveColor_eq_blendedColor (c : Color) (s : State) :
    waveColor c s = fun i => blendedColor c (wsin s.cfg.n (s.regs.animStep.toNat + i)) := by
  funext i
  simp only [waveColor, Color.map, blendChannel, blendValue_eq_blended, blendedColor]

/-! ## BLEND (R102) -/

/-- A part of `a` in 16384ths is between 0 and `a`. -/
theorem mul_ediv_scale_mem {a e : Int} (ha : 0 ≤ a) (he : 0 ≤ e) (he' : e ≤ 16384) :
    0 ≤ a * e / 16384 ∧ a * e / 16384 ≤ a :=
  ⟨Int.ediv_nonneg (mul_nonneg ha he) (by decide),
    Int.ediv_le_of_le_mul (by decide) (mul_le_mul_of_nonneg_left he' ha)⟩

theorem blendValue_mem {v sine : Int} (hv : 0 ≤ v) (hv' : v ≤ 127) (hs : -16384 ≤ sine)
    (hs' : sine ≤ 16384) : 0 ≤ blendValue v sine ∧ blendValue v sine ≤ 127 := by
  unfold blendValue
  split
  · have h := mul_ediv_scale_mem (a := 127 - v) (e := 16384 - sine) (by omega) (by omega) (by omega)
    omega
  · have h := mul_ediv_scale_mem (e := 16384 + sine) hv (by omega) (by omega)
    omega

theorem blendChannel_zero (v : Channel) : blendChannel 0 v = v := by
  have h : blendValue v.toNat 0 = v.toNat := by simp [blendValue]
  rw [blendChannel, h, BitVec.ofInt_natCast, BitVec.ofNat_toNat, BitVec.setWidth_eq]

theorem blendChannel_white (v : Channel) : blendChannel 16384 v = 127 := by
  have h : blendValue v.toNat 16384 = 127 := by simp [blendValue]
  rw [blendChannel, h]
  rfl

theorem blendChannel_black (v : Channel) : blendChannel (-16384) v = 0 := by
  have h : blendValue v.toNat (-16384) = 0 := by simp [blendValue]
  rw [blendChannel, h]
  rfl

/-! ## The bounds of an opaque frame (R110) -/

theorem opaqueAnim_eq_or_le (choice : Option Nat) (a : BitVec 9) :
    opaqueAnim choice a = a ∨ (opaqueAnim choice a).toNat ≤ 384 := by
  cases choice with
  | none => exact .inl rfl
  | some v => exact .inr (opaqueAnim_le (some v) (a := 0) (Nat.zero_le _))

theorem opaqueFrameStep_eq_or_le (n : Nat) (choice : Option Nat) (f : BitVec 8) :
    opaqueFrameStep n choice f = f ∨ (opaqueFrameStep n choice f).toNat ≤ n := by
  cases choice with
  | none => exact .inl rfl
  | some v => exact .inr (opaqueFrameStep_le (some v) (f := 0) (Nat.zero_le _))

end Sys2Proof.Machine

namespace Sys2Proof.Proofs

open Sys2Proof.Machine Sys2Proof.Claims

/-- Settles O45: BRIGHTNESS is a level, and the wheel gives the hue of the position. -/
theorem rainbowDrawsTheTravelingHue : Obligations.RainbowDrawsTheTravelingHue := by
  intro s hlit hs
  obtain ⟨l, hl, hn⟩ := exists_levelOf hlit
  exact ⟨_, withBrightness_of_level hl, rfl,
    drewFrame_of_scaledPixels hs hn (rainbowColor_eq_rainbowAt s) rfl rfl rfl rfl⟩

/-- Settles O47: BRIGHTNESS is a level, and the wheel gives the hue of the position of the sum. -/
theorem plasmaDrawsTheInterferencePattern : Obligations.PlasmaDrawsTheInterferencePattern := by
  intro s hlit hs
  obtain ⟨l, hl, hn⟩ := exists_levelOf hlit
  exact ⟨_, withBrightness_of_level hl, rfl,
    drewFrame_of_scaledPixels hs hn (plasmaColor_eq_plasmaAt s) rfl rfl rfl rfl⟩

/-- Settles O49: BRIGHTNESS is a level, and each channel of the base color is blended. -/
theorem waveDrawsTheBlendedSine : Obligations.WaveDrawsTheBlendedSine := by
  intro s hlit hs
  obtain ⟨l, hl, hn⟩ := exists_levelOf hlit
  rw [← waveBase_eq_waveBaseAt]
  exact ⟨_, withBrightness_of_level hl, rfl,
    drewFrame_of_scaledPixels hs hn (waveColor_eq_blendedColor _ s) rfl rfl rfl rfl⟩

/-- Settles O50: BLEND adds or takes a part in 16384ths of what is left to white or black. -/
theorem blendStaysBetweenBlackAndWhite : Obligations.BlendStaysBetweenBlackAndWhite := by
  intro v sine hs hs'
  obtain ⟨hlow, hhigh⟩ := blendValue_mem (v := v.toNat) (by omega) (by omega) hs hs'
  exact ⟨hlow, hhigh, blendChannel_zero v, blendChannel_white v, blendChannel_black v⟩

/-- Settles O60: every opaque generator is the shared opaque frame, whose events the arrays
replay. -/
theorem opaqueFrameStaysWithinItsBounds : Obligations.OpaqueFrameStaysWithinItsBounds := by
  intro g m hgm s _
  exact ⟨runOpaque m s, (drawnFrame m s).pixels, exec_opaque (isOpaque_of_mem hgm) s,
    by rw [runOpaque_px, frame_events, List.append_assoc],
    by rw [replay_frame, runOpaque_px],
    opaqueAnim_eq_or_le _ _, opaqueFrameStep_eq_or_le _ _ _,
    fun _ hk => readPriv_opaquePriv_other _ _ hk, rfl, rfl, rfl⟩

/-- Settles O6: the sixteen entries of MODE_MAP. -/
theorem dispatchCodesSelectTheirGenerators : Obligations.DispatchCodesSelectTheirGenerators := by
  unfold Obligations.DispatchCodesSelectTheirGenerators
  decide

end Sys2Proof.Proofs
end

section
/-! PROOF. The Frame Scheduler (43_frame_scheduler.md): the gate of a TICK, what an accepted one
runs, and the periods of the counters its completion advances. -/

namespace Sys2Proof.Machine

open Sys2Proof.Claims

variable {s u : State} {g : Instr} {base : BitVec 16}

/-! ## The gate (R121) -/

theorem tickGated_iff_elapsed :
    tickGated (now s) s.regs = true ↔
      elapsed s.regs.lastFrame s.io.nowMs < s.regs.interval.toNat * s.regs.speed.toNat := by
  rw [tickGated_iff, elapsedSince_eq_elapsed, now]

theorem tickGated_eq_false
    (h : s.regs.interval.toNat * s.regs.speed.toNat ≤ elapsed s.regs.lastFrame s.io.nowMs) :
    tickGated (now s) s.regs = false :=
  Bool.eq_false_iff.mpr fun hg => (tickGated_iff_elapsed.mp hg).not_ge h

/-! ## The state an accepted TICK dispatches in (R119, R122) -/

theorem baseIntervalOf_eq (h : s.cfg.baseInterval[s.regs.mode.toNat]? = some base) :
    baseIntervalOf s = base := by
  rw [baseIntervalOf, List.getD_eq_getElem?_getD, h, Option.getD_some]

theorem dispatchState_of_frame (tm : Millis) (hm : s.regs.mode ≠ 8)
    (hbase : s.cfg.baseInterval[s.regs.mode.toNat]? = some base) :
    dispatchState tm s = { s with regs.interval := base } := by
  rw [dispatchState, if_neg hm, baseIntervalOf_eq hbase]

theorem dispatchState_of_dither (tm : Millis) (hm : s.regs.mode = 8)
    (hbase : s.cfg.baseInterval[s.regs.mode.toNat]? = some base) :
    dispatchState tm s = { s with
      regs.interval := base
      regs.dnow := tm } := by
  rw [dispatchState, if_pos hm, baseIntervalOf_eq hbase]

/-! ## The periods of the counters (R25, R26, R124) -/

/-- A counter that advances by one below `m` and wraps from `m` to 0 counts its advances. -/
theorem toNat_iterate_wrap {w m k : Nat} {advance : BitVec w → BitVec w}
    (hadv : ∀ a, (advance a).toNat = if m ≤ a.toNat then 0 else a.toNat + 1) (hk : k ≤ m) :
    (advance^[k] 0).toNat = k := by
  induction k with
  | zero => exact BitVec.toNat_zero
  | succ k ih =>
    rw [Function.iterate_succ_apply', hadv, ih (Nat.le_of_succ_le hk), if_neg (Nat.not_le.mpr hk)]

/-- Such a counter is back at 0 after `m + 1` advances. -/
theorem iterate_wrap_period {w m : Nat} {advance : BitVec w → BitVec w}
    (hadv : ∀ a, (advance a).toNat = if m ≤ a.toNat then 0 else a.toNat + 1) :
    advance^[m + 1] 0 = 0 := by
  apply BitVec.eq_of_toNat_eq
  rw [Function.iterate_succ_apply', hadv, toNat_iterate_wrap hadv le_rfl, if_pos le_rfl]
  exact BitVec.toNat_zero.symm

end Sys2Proof.Machine

namespace Sys2Proof.Proofs

open Sys2Proof.Machine Sys2Proof.Claims

/-- Settles O40: with BRIGHTNESS 1..5 the generator completes in the dispatched state, and TICK then
answers its completion. -/
theorem acceptedTickRunsOneFrameAndCompletes :
    Obligations.AcceptedTickRunsOneFrameAndCompletes := by
  intro s g base hpassed hg hm hbase hlit
  have hd := dispatchState_of_frame (now s) hm hbase
  obtain ⟨u, hu⟩ :=
    generator_completes (s := dispatchState (now s) s) (decodeDispatch_isGenerator hg) (by simpa)
  refine ⟨u, hd ▸ hu, (execTick_of_generator (tickGated_eq_false hpassed) hg hu).trans ?_⟩
  rw [if_neg hm, complete_eq_completed, now]

/-- Settles O41: MODE 8 selects GEN_DITHER, whose start is its whole frame for TICK. -/
theorem acceptedDitherTickStartsTheFrame : Obligations.AcceptedDitherTickStartsTheFrame := by
  intro s base hpassed hm hbase
  have hg : decodeDispatch s.regs.mode = .ok .genDither := by rw [hm]; rfl
  have hd := dispatchState_of_dither (base := base) (now s) hm (by rw [hm]; exact hbase)
  refine (execTick_of_generator (tickGated_eq_false hpassed) hg rfl).trans ?_
  rw [if_pos hm, hd]
  rfl

/-- Settles O44: both counters advance by one and wrap at their end. -/
theorem countersHavePeriods385AndNPlusOne : Obligations.CountersHavePeriods385AndNPlusOne :=
  ⟨fun _ => toNat_iterate_wrap toNat_advanceAnim, iterate_wrap_period toNat_advanceAnim,
    fun _ hn => ⟨fun _ => toNat_iterate_wrap (toNat_advanceFrame hn),
      iterate_wrap_period (toNat_advanceFrame hn)⟩⟩

/-- Settles O39: the gate is the elapsed time of R121. -/
theorem gatedTickChangesNothing : Obligations.GatedTickChangesNothing :=
  fun _ h => execTick_of_gated (tickGated_iff_elapsed.mpr h)

end Sys2Proof.Proofs
end

section
/-! PROOF. The control commands (44_control_commands.md): the advances of the settings as numbers, the
words of the step events, and the reserved indices of READ_REG. -/

namespace Sys2Proof.Machine

open Sys2Proof.Claims

variable {i : Instr} {idx : BitVec 4} {w : Word} {op : Nat}

/-! ## The advances of the settings (R131 to R133) -/

/-- A register plus one is the word of its number plus one. -/
theorem ofNat_toNat_add_one {n : Nat} (x : BitVec n) : BitVec.ofNat n (x.toNat + 1) = x + 1 := by
  rw [BitVec.ofNat_add, BitVec.ofNat_toNat, BitVec.setWidth_eq]
  rfl

theorem toNat_nextMode (m : BitVec 4) :
    (nextMode m).toNat = if 11 ≤ m.toNat then 0 else m.toNat + 1 := by
  unfold nextMode numberOfModes
  split <;> bv_omega

/-- A counter that advances by one below `m` and wraps from `m` to 0 is back at any value of its range
after `m + 1` advances: the value is itself reached from 0. -/
theorem iterate_wrap_eq_self {n m : Nat} {advance : BitVec n → BitVec n} {a : BitVec n}
    (hadv : ∀ a, (advance a).toNat = if m ≤ a.toNat then 0 else a.toNat + 1) (ha : a.toNat ≤ m) :
    advance^[m + 1] a = a := by
  have hreach : advance^[a.toNat] 0 = a := BitVec.eq_of_toNat_eq (toNat_iterate_wrap hadv ha)
  calc advance^[m + 1] a = advance^[m + 1] (advance^[a.toNat] 0) := by rw [hreach]
    _ = advance^[a.toNat] (advance^[m + 1] 0) := Function.Commute.iterate_iterate_self ..
    _ = a := by rw [iterate_wrap_period hadv, hreach]

/-! ## The words of the step events (R65, R71) -/

/-- The OPs 0x00 to 0x05 are those of format Z (R69). -/
theorem decode_eq_decodeZ (h : Row i (opField w).toNat 0) (hop : (opField w).toNat ≤ 0x05) :
    decode w = decodeZ i (argField w) := by
  unfold decode
  generalize (opField w).toNat = op at h hop
  cases h with
  | nop | tick | stepMode | stepSpeed | stepBrightness | toggleEnable => rfl
  | wheel | scale | readReg => exact absurd hop (by decide)

theorem onlyZeroArg_of_row (h : Row i op 0) (hop : op ≤ 0x05) : OnlyZeroArg op i :=
  onlyZeroArg_of_decodeZ fun _ ho => decode_eq_decodeZ (ho ▸ h) (ho ▸ hop)

/-! ## READ_REG of a reserved index (R135) -/

theorem execReadReg_of_reserved (h : 11 ≤ idx.toNat) (s : State) :
    execReadReg idx s = raiseIllegal (readRegWord idx) s := by
  rw [execReadReg, readRegister_eq_none.mpr h]

/-- READ_REG's word from its index as a number (R65 format RR). -/
theorem readRegWord_eq_ofNat (idx : BitVec 4) :
    readRegWord idx = BitVec.ofNat 32 (0x20 * 2 ^ 24 + idx.toNat) := by
  have h : (readRegWord idx).toNat = 0x20 * 2 ^ 24 + idx.toNat := by
    rw [readRegWord, toNat_commandWord, BitVec.toNat_append]
    simp
  rw [← h, BitVec.ofNat_toNat, BitVec.setWidth_eq]

end Sys2Proof.Machine

namespace Sys2Proof.Proofs

open Sys2Proof.Machine Sys2Proof.Claims

/-- Settles O32: the read map has no such index, so the command raises Illegal with its word. -/
theorem readRegOfReservedIndexIsIllegal : Obligations.ReadRegOfReservedIndexIsIllegal := by
  intro s idx h
  rw [← readRegWord_eq_ofNat]
  exact execReadReg_of_reserved h s

/-- Settles O26: NOP answers its state, and its OP is of format Z. -/
theorem nopChangesNothing : Obligations.NopChangesNothing :=
  ⟨fun _ => rfl, onlyZeroArg_of_row .nop (by decide)⟩

/-- Settles O27: MODE is a counter that wraps from 11, so twelve advances give it back. -/
theorem stepModeAdvancesModeAndClearsCounters :
    Obligations.StepModeAdvancesModeAndClearsCounters := by
  refine ⟨fun s => ?_, fun _ => iterate_wrap_eq_self toNat_nextMode,
    onlyZeroArg_of_row .stepMode (by decide)⟩
  rw [ofNat_toNat_add_one]
  rfl

/-- Settles O28: SPEED is a counter that wraps from SPEED_MAX. -/
theorem stepSpeedAdvancesSpeed : Obligations.StepSpeedAdvancesSpeed := by
  refine ⟨fun s => ?_, onlyZeroArg_of_row .stepSpeed (by decide)⟩
  rw [ofNat_toNat_add_one]
  rfl

/-- Settles O29: BRIGHTNESS is a counter that wraps from 5 to 1. -/
theorem stepBrightnessAdvancesBrightness : Obligations.StepBrightnessAdvancesBrightness := by
  refine ⟨fun s => ?_, onlyZeroArg_of_row .stepBrightness (by decide)⟩
  rw [ofNat_toNat_add_one]
  rfl

end Sys2Proof.Proofs
end

section
/-! PROOF. Exceptions (60_exceptions.md): the illegal word, the idle engine, and why a state of the
invariant is never refused. -/

namespace Sys2Proof.Machine

variable {s t : State} {i : Instr} {w : Word} {why : IllegalReason}

/-! ## The step of each case of the engine (R63, R143) -/

/-- The step of a state with `rst` at 1 (R151). -/
theorem step_of_rst (hv : s.cfg.Valid) (hr : (envStep s).io.rst = true) :
    step s = .next (applyReset (envStep s)) := by
  rw [step, if_pos hv, engineStep, if_pos hr]

/-- The step of a state between commands: the engine is idle (R150). -/
theorem step_of_idle (hv : s.cfg.Valid) (hr : (envStep s).io.rst = false)
    (hb : s.regs.busy = false) (hp : (envStep s).io.port = []) : step s = .next (envStep s) := by
  rw [step, if_pos hv, engineStep, if_neg (by simp [hr]), if_neg (by simp [hb]), acceptCommand,
    acceptWord_eq_none.mpr hp]

theorem performWord_of_ok (hd : decode w = .ok i) (s : State) : performWord w s = exec i s := by
  rw [performWord, hd]

theorem performWord_of_illegal (hd : decode w = .illegal why) (s : State) :
    performWord w s = raiseIllegal w s := by
  rw [performWord, hd]

/-! ## No command and no Dither step writes ILL (R23, R140) -/

theorem ExecEffect.ill (h : ExecEffect s i t) : t.regs.ill = s.regs.ill := by
  cases h with
  | nop | gatedTick _ | stepMode | stepSpeed | stepBrightness | toggleEnable | response _ _ => rfl
  | ditherTick _ => simp
  | frameTick _ _ hu => simpa using (generator_frame hu).ill
  | generator _ hg => exact (generator_frame hg).ill

theorem ditherStep_ill (h : ditherStep s = .next t) : t.regs.ill = s.regs.ill := by
  rcases dither_effect h with ⟨-, l, -, rfl⟩ | ⟨-, rfl⟩ | ⟨-, -, rfl⟩ <;> rfl

/-- ILL is sticky: a next state without reset keeps it. -/
theorem unreset_step_ill (hr : (envStep s).io.rst = false) (h : step s = .next t) :
    t.regs.ill = s.regs.ill := by
  obtain ⟨-, ⟨hr', -⟩ | ⟨-, -, hx⟩ | ⟨-, -, -, rfl⟩ | ⟨_, rest, i, -, -, -, -, hx⟩⟩ :=
    step_effect h
  · exact Bool.noConfusion (hr.symm.trans hr')
  · simpa using ditherStep_ill hx
  · simp
  · simpa using (exec_effect hx).ill

/-! ## What a state of the invariant answers (R138, R139) -/

/-- The outcome is no refusal: a next state, or `Illegal` with the state to continue from. -/
def Answers (r : Result) : Prop := (∃ t, r = .next t) ∨ ∃ w t, r = .fault (.illegal w t)

theorem answers_next (s : State) : Answers (.next s) := .inl ⟨s, rfl⟩

theorem answers_raiseIllegal (w : Word) (s : State) : Answers (raiseIllegal w s) :=
  .inr ⟨w, _, rfl⟩

/-- The MODE values that are held select a generator (R17, R92). -/
theorem exists_decodeDispatch {m : BitVec 4} (h : m.toNat ≤ 11) :
    ∃ g, decodeDispatch m = .ok g := by
  unfold decodeDispatch
  interval_cases m.toNat <;> exact ⟨_, rfl⟩

/-- With MODE 0..11 and BRIGHTNESS 1..5 a TICK completes, gated or not. -/
theorem tick_completes (hm : s.regs.mode.toNat ≤ 11)
    (hb : 1 ≤ s.regs.brightness.toNat ∧ s.regs.brightness.toNat ≤ 5) :
    ∃ t, execTick s = .next t := by
  cases hg : tickGated (now s) s.regs with
  | true => exact ⟨s, execTick_of_gated hg⟩
  | false =>
    obtain ⟨g, hd⟩ := exists_decodeDispatch hm
    obtain ⟨u, hu⟩ := generator_completes (s := dispatchState (now s) s)
      (decodeDispatch_isGenerator hd) (by simpa using hb)
    exact ⟨_, execTick_of_generator hg hd hu⟩

/-- With BRIGHTNESS 1..5 a Dither step completes: DSTEP has a level, DEND and the hold need none. -/
theorem ditherStep_completes (hb : 1 ≤ s.regs.brightness.toNat ∧ s.regs.brightness.toNat ≤ 5) :
    ∃ t, ditherStep s = .next t := by
  obtain ⟨l, hl, -⟩ := exists_levelOf hb
  unfold ditherStep
  split
  · exact ⟨_, withBrightness_of_level hl⟩
  · split <;> exact ⟨_, rfl⟩

theorem execScale_answers (lvl : BitVec 3) (c : Color) (s : State) :
    Answers (execScale lvl c s) := by
  unfold execScale
  split
  · exact answers_next _
  · exact answers_raiseIllegal _ _

theorem execReadReg_answers (idx : BitVec 4) (s : State) : Answers (execReadReg idx s) := by
  unfold execReadReg
  split
  · exact answers_next _
  · exact answers_raiseIllegal _ _

/-- Only TICK and the generators can be refused, and the invariant shuts that out. -/
protected theorem Inv.exec_answers (h : Inv s) (i : Instr) : Answers (exec i s) := by
  cases i with
  | tick => exact .inl (tick_completes h.mode h.brightness)
  | scale lvl c => exact execScale_answers lvl c s
  | readReg idx => exact execReadReg_answers idx s
  | nop | stepMode | stepSpeed | stepBrightness | toggleEnable | wheel => exact answers_next _
  | genRainbow | genBreathing | genPlasma | genChase | genWipe | genSparkle | genScanner | genWave
  | genDither | genSparkler | genFadeIn | genFadeOut =>
    exact .inl (generator_completes rfl h.brightness)

protected theorem Inv.performWord_answers (h : Inv s) (w : Word) : Answers (performWord w s) := by
  cases hd : decode w with
  | ok i => exact performWord_of_ok hd s ▸ h.exec_answers i
  | illegal why => exact performWord_of_illegal hd s ▸ answers_raiseIllegal w s

/-- In each case of the engine the step answers: reset, a Dither step, idle, or a word (R143). -/
protected theorem Inv.step_answers (h : Inv s) : Answers (step s) := by
  cases hr : (envStep s).io.rst with
  | true => exact step_of_rst h.cfg hr ▸ answers_next _
  | false =>
    cases hb : s.regs.busy with
    | true => exact step_of_busy h.cfg hr hb ▸ .inl (ditherStep_completes h.envStep.brightness)
    | false =>
      cases hp : (envStep s).io.port with
      | nil => exact step_of_idle h.cfg hr hb hp ▸ answers_next _
      | cons w rest =>
        exact step_of_word h.cfg hr hb hp ▸ (h.envStep.withPort rest).performWord_answers w

end Sys2Proof.Machine

namespace Sys2Proof.Proofs

open Sys2Proof.Machine

/-- Settles O10: an illegal word raises Illegal in the state with the word taken; of the other steps
only the reset writes ILL. -/
theorem illegalWordFaultsAndOnlySetsStickyIll :
    Obligations.IllegalWordFaultsAndOnlySetsStickyIll := by
  refine ⟨fun s w rest why hv hr hb hp hd => ?_, fun _ _ => unreset_step_ill, fun s t hr h => ?_⟩
  · rw [step_of_word hv hr hb hp, performWord_of_illegal hd]
    rfl
  · obtain rfl := step_of_reset hr h
    rfl

/-- Settles O17: the invariant keeps MODE, BRIGHTNESS and the configuration in the ranges outside of
which alone the model refuses. -/
theorem invariantStatesAreNeverRefused : Obligations.InvariantStatesAreNeverRefused :=
  fun _ h => h.step_answers

/-- Settles O12: with no word to accept the engine's action is none, and the environment moves only
the inputs. -/
theorem idleEngineChangesNothing : Obligations.IdleEngineChangesNothing :=
  fun s hv hr hb hp =>
    ⟨step_of_idle hv hr hb hp, envStep_regs s, envStep_px s, envStep_cfg s, envStep_draws s⟩

end Sys2Proof.Proofs
end

section
/-! PROOF. Reset and hazards (70_reset_and_hazards.md): the configuration that no step changes, what a
BUSY step may write, the reset step, and the first frames after a reset, after STEP_MODE and at
ANIM_STEP 384. -/

namespace Sys2Proof.Machine

open Sys2Proof.Claims

variable {s t : State}

/-! ## What a Dither step writes (R108, R159, R164) -/

/-- A Dither step leaves configuration, inputs and the draw counter, and of the registers it writes at
most the counters, LAST_FRAME, BUSY, DSUB and DT. -/
structure DitherFrame (s t : State) : Prop where
  cfg : t.cfg = s.cfg
  io : t.io = s.io
  draws : t.draws = s.draws
  regs : t.regs = { s.regs with
    animStep := t.regs.animStep
    frameStep := t.regs.frameStep
    lastFrame := t.regs.lastFrame
    busy := t.regs.busy
    dsub := t.regs.dsub
    dt := t.regs.dt }

/-- DSTEP, DEND and the hold each keep to that frame. -/
theorem ditherFrame_of_ditherStep (h : ditherStep s = .next t) : DitherFrame s t := by
  rcases dither_effect h with ⟨-, l, -, rfl⟩ | ⟨-, rfl⟩ | ⟨-, -, rfl⟩
  · exact ⟨rfl, rfl, rfl, rfl⟩
  · exact ⟨rfl, rfl, rfl, rfl⟩
  · exact ⟨rfl, rfl, rfl, rfl⟩

/-- An unreset step of a BUSY engine is a Dither step (R143). -/
theorem ditherStep_of_busy_step (hb : s.regs.busy = true) (hr : (envStep s).io.rst = false)
    (h : step s = .next t) : ditherStep (envStep s) = .next t := by
  obtain ⟨hv, -⟩ := step_effect h
  rw [← step_of_busy hv hr hb, h]

/-! ## The configuration (R155) -/

theorem step_cfg (h : step s = .next t) : t.cfg = s.cfg := by
  obtain ⟨-, ⟨-, rfl⟩ | ⟨-, -, hx⟩ | ⟨-, -, -, rfl⟩ | ⟨_, rest, i, -, -, -, -, hx⟩⟩ :=
    step_effect h
  · simp
  · simpa using (ditherFrame_of_ditherStep hx).cfg
  · exact envStep_cfg s
  · simpa using (exec_cfg_io hx).1

theorem step_fault_cfg {w : Word} (h : step s = .fault (.illegal w t)) : t.cfg = s.cfg := by
  obtain ⟨-, -, -, _, rest, _, -, hf⟩ := step_fault_effect h
  cases hf
  simp

/-! ## STRIP in the reset step (R151) -/

/-- STRIP is kept when a Dither frame in progress has flushed, and in a later step of the same reset. -/
theorem stripAfterReset_of_kept (h : s.regs.busy = true ∧ s.regs.dsub ≠ 0 ∨ s.io.rstHeld = true) :
    stripAfterReset s = s.px.strip := by
  rcases h with ⟨hb, hd⟩ | hheld
  · exact stripAfterReset_of_flushed hb hd
  · exact stripAfterReset_of_held hheld

/-! ## The gate after STEP_MODE and the interval an accepted TICK leaves (R122, R131, R158) -/

/-- STEP_MODE writes no register that the gate of a TICK reads. -/
theorem tickGated_of_stepMode (h : exec .stepMode s = .next t) :
    tickGated (now t) t.regs = tickGated (now s) s.regs := by
  cases h
  rfl

/-- No generator and no completion writes INTERVAL, so a TICK that is not gated leaves the base
interval of its MODE there. -/
theorem tick_interval (hg : tickGated (now s) s.regs = false) (h : execTick s = .next t) :
    t.regs.interval = baseIntervalOf s := by
  rcases tick_effect h with ⟨hg', -⟩ | ⟨g, u, -, hd, hu, rfl⟩
  · exact Bool.noConfusion (hg.symm.trans hg')
  · have hi : u.regs.interval = baseIntervalOf s := by
      simpa using (generator_frame (generator_effect (decodeDispatch_isGenerator hd) hu)).interval
    split
    · exact hi
    · exact hi

/-! ## The Rainbow frame at ANIM_STEP 0 and 384 (R93, R154, R162) -/

/-- Level 1 is full brightness (R85). -/
theorem dim_one (c : Color) : dim 1 c = c := by
  simp [dim, dimmed]

theorem lit_of_brightness_one (hb : s.regs.brightness = 1) : Lit s := by
  rw [Lit, hb]
  decide

/-- Only the colors of the pixels 0..N-1 are drawn. -/
theorem drewFrame_congr_color {color color' : Nat → Color} (h : DrewFrame s t color)
    (hc : ∀ i < s.cfg.n, color i = color' i) : DrewFrame s t color' :=
  { h with
    events := by
      rw [h.events]
      congr 2
      exact List.map_congr_left fun i hi => by rw [hc i (List.mem_range.mp hi)]
    pixels := fun i hi => by rw [h.pixels i hi, hc i hi] }

/-- At ANIM_STEP 0 the wheel position of a pixel needs no reduction. -/
theorem rainbowAt_of_animStep_zero (ha : s.regs.animStep = 0) {i : Nat} (hi : i < s.cfg.n) :
    rainbowAt s i = hueColor (i * 384 / s.cfg.n) := by
  have hlt : i * 384 / s.cfg.n < 384 :=
    Nat.div_lt_of_lt_mul (Nat.mul_lt_mul_of_pos_right hi (by decide))
  have hzero : s.regs.animStep.toNat = 0 := congrArg BitVec.toNat ha
  rw [rainbowAt, hzero, Nat.add_zero, Nat.mod_eq_of_lt hlt]

/-- At full brightness and ANIM_STEP 0 the Rainbow frame is the wheel itself, in N equal steps. -/
theorem genRainbow_of_animStep_zero (h : exec .genRainbow s = .next t) (hs : Surfaced s)
    (hb : s.regs.brightness = 1) (ha : s.regs.animStep = 0) :
    t.regs = s.regs ∧ DrewFrame s t fun i => hueColor (i * 384 / s.cfg.n) := by
  have hlit := lit_of_brightness_one hb
  obtain ⟨t', ht', hregs, hdrew⟩ := Proofs.rainbowDrawsTheTravelingHue s hlit hs
  obtain rfl : t' = t := Host.Outcome.next.inj (ht'.symm.trans h)
  refine ⟨hregs, drewFrame_congr_color hdrew fun i hi => ?_⟩
  have hone : s.regs.brightness.toNat = 1 := congrArg BitVec.toNat hb
  rw [hone, dim_one, rainbowAt_of_animStep_zero ha hi]

/-- The completion of a frame takes both counters from 0 to 1 (R124). -/
theorem completed_regs_of_zero (hn : 1 ≤ s.cfg.n) (ha : s.regs.animStep = 0)
    (hf : s.regs.frameStep = 0) (tm : Millis) :
    (completed tm s).regs = { s.regs with
      animStep := 1
      frameStep := 1
      lastFrame := tm } := by
  have hframe : frameAfter s.cfg.n 0 = 1 := if_neg (by omega)
  have hzero : s.regs.frameStep.toNat = 0 := congrArg BitVec.toNat hf
  rw [completed, ha, hzero, hframe]
  rfl

/-- The wheel has 384 positions, so ANIM_STEP 384 turns it once around (R162). -/
theorem rainbowPosition_384 (n i : Nat) : rainbowPosition n 384 i = rainbowPosition n 0 i :=
  Nat.add_mod_right _ 384

/-- GEN_RAINBOW sends one frame of its scaled pixels. -/
theorem genRainbow_px (h : exec .genRainbow s = .next t) :
    ∃ l, levelOf s.regs.brightness = some l ∧
      t.px = s.px.frame s.cfg.n (scaledPixels s.cfg.n l (rainbowColor s)) := by
  obtain ⟨l, hl, h⟩ := withBrightness_eq_next h
  cases h
  exact ⟨l, hl, rfl⟩

end Sys2Proof.Machine

namespace Sys2Proof.Proofs

open Sys2Proof.Machine Sys2Proof.Claims

/-- Settles O11: a BUSY step without reset is a Dither step. -/
theorem busyEngineAcceptsNoCommand : Obligations.BusyEngineAcceptsNoCommand := by
  intro s t hb hr h
  obtain ⟨-, hio, hdraws, hregs⟩ := ditherFrame_of_ditherStep (ditherStep_of_busy_step hb hr h)
  rw [envStep_draws] at hdraws
  rw [envStep_regs] at hregs
  exact ⟨hio, hdraws, hregs⟩

/-- Settles O18: no case of the step writes the configuration, and neither does an illegal word. -/
theorem noStepChangesTheConfiguration : Obligations.NoStepChangesTheConfiguration :=
  fun _ _ => ⟨step_cfg, fun _ => step_fault_cfg⟩

/-- Settles O42: INTERVAL 0 does not gate, MODE 0 selects Rainbow, level 1 keeps its colors, and the
completion advances both counters from 0. -/
theorem firstTickAfterResetDrawsTheRainbow : Obligations.FirstTickAfterResetDrawsTheRainbow := by
  intro s base hv hreset hsurf hbase
  obtain ⟨hn, hn', -⟩ := hv
  have hmode : s.regs.mode = 0 := congrArg Regs.mode hreset
  have hbright : s.regs.brightness = 1 := congrArg Regs.brightness hreset
  have hanim : s.regs.animStep = 0 := congrArg Regs.animStep hreset
  have hframe : s.regs.frameStep = 0 := congrArg Regs.frameStep hreset
  have hinterval : s.regs.interval = 0 := congrArg Regs.interval hreset
  have hlit := lit_of_brightness_one hbright
  obtain ⟨u, hu, htick⟩ := acceptedTickRunsOneFrameAndCompletes s .genRainbow base
    (by simp [hinterval]) (by rw [hmode]; rfl) (by simp [hmode]) (by rw [hmode]; exact hbase) hlit
  obtain ⟨hregs, hdrew⟩ := genRainbow_of_animStep_zero hu ⟨hsurf, hn'⟩ hbright hanim
  refine ⟨_, htick, { hdrew with }, ?_⟩
  have hn_u : 1 ≤ u.cfg.n := hdrew.cfg ▸ hn
  rw [completed_regs_of_zero hn_u (by rw [hregs, hanim]) (by rw [hregs, hframe]), hregs]

/-- Settles O43: STEP_MODE writes no register the gate reads, and the TICK after it runs in the new
MODE. -/
theorem intervalLagsOneFrameAfterStepMode : Obligations.IntervalLagsOneFrameAfterStepMode := by
  intro s u base hu hbase hm hlit
  have hgate := tickGated_of_stepMode hu
  rw [← (exec_cfg_io hu).1] at hbase
  have hlit' : Lit u := by cases hu; exact hlit
  refine ⟨by cases hu; rfl, fun hgated => ?_, fun hpassed => ?_⟩
  · exact execTick_of_gated (hgate.trans (tickGated_iff_elapsed.mpr hgated))
  · obtain ⟨v, hv⟩ := tick_completes hm hlit'
    have hi := tick_interval (hgate.trans (tickGated_eq_false hpassed)) hv
    exact ⟨v, hv, hi.trans (baseIntervalOf_eq hbase)⟩

/-- Settles O46: the two frames have the same level and, pixel by pixel, the same wheel position. -/
theorem rainbowAt384RepeatsTheFrameAtZero : Obligations.RainbowAt384RepeatsTheFrameAtZero := by
  intro s t u ht hu
  obtain ⟨l, hl, hpx⟩ := genRainbow_px ht
  obtain ⟨k, hk, hpx'⟩ := genRainbow_px hu
  obtain rfl : l = k := Option.some.inj (hl.symm.trans hk)
  have hcolor : rainbowColor { s with regs.animStep := 384 } =
      rainbowColor { s with regs.animStep := 0 } :=
    funext fun i => congrArg wheel (rainbowPosition_384 s.cfg.n i)
  rw [hpx, hpx', hcolor]

/-- Settles O13: the step is the reset of the sampled state, field by field. -/
theorem resetPinResetsEveryRegister : Obligations.ResetPinResetsEveryRegister := by
  intro s hv hr
  refine ⟨_, step_of_rst hv hr, rfl, by simp, fun hkept => ?_, by simp, fun hlen => ?_, by simp, rfl⟩
  · rw [applyReset_px, stripAfterReset_of_kept (by simpa using hkept), envStep_px]
  · simpa using (applyReset_wf (s := envStep s) (by simpa using hlen)).2

end Sys2Proof.Proofs
end
